-- ==== Sys2Proof/Word.lean ====
section
/-!
DEFINITION. The word types of the command set (spec/00_scope.md rules R6 and R7): every value is an unsigned bit
vector, nothing is signed and nothing is sign-extended.
-/

namespace Sys2Proof

/-- An 8-bit value (rule R7; `FRAME_BITS` and `DMA_WIDTH` of rule R6). -/
abbrev Byte := BitVec 8

/-- A buffer address, `AW` = 32 bits (rules R6 and R7). -/
abbrev Addr := BitVec 32

/-- A burst length, `LENW` = 24 bits (rules R6 and R7). -/
abbrev Len := BitVec 24

/-- A command word, `CMDW` = 64 bits (rules R6, R7 and R70). -/
abbrev Word := BitVec 64

end Sys2Proof
end

