-- ==== Sys2Proof/Syntax.lean ====
section
/-!
DEFINITION. The seven commands of SPIMCS-CMD 1 (spec/30_encoding.md rules R74 and R82), one constructor per row of
spec/opcode_table.json, with their operands as rule R75 assembles them.
-/

namespace Sys2Proof

/-- A command (rule R74). -/
inductive Instr where
  /-- `SEL`: select the attached chip (rule R90). -/
  | sel
  /-- `DESEL`: deselect the attached chip (rule R91). -/
  | desel
  /-- `RDB`: read one byte (rule R100). -/
  | rdb
  /-- `WRB data`: write one byte (rule R101). -/
  | wrb (data : Byte)
  /-- `RDBURST addr, len`: read `len` bytes from the bus into memory at `addr` (rule R110). -/
  | rdburst (addr : Addr) (len : Len)
  /-- `WRBURST addr, len`: write `len` bytes from memory at `addr` to the bus (rule R111). -/
  | wrburst (addr : Addr) (len : Len)
  /-- `CRST`: run the reset sequence of the attached chip (rule R140). -/
  | crst
  deriving DecidableEq, Repr

end Sys2Proof
end

