-- ==== Sys2Proof/Config.lean ====
section
/-!
DEFINITION. What the implementation fixes and what the spec leaves open (spec/00_scope.md rule R6,
spec/93_implementation_defined.md section 2): the named constants of the block, the parameters a model takes as
arguments, and the free values, which are opaque constants with no body.
-/

namespace Sys2Proof

/-- The level of a line (spec/10_state.md rules R22 to R24). -/
inductive Level where
  | low
  | high
  deriving DecidableEq, Repr

/-- The agents that execute steps (rule R10). The sixth of rule R10, SLAVE, is the oracle of rule R39: it has no step
of its own and answers inside the steps of ENG and SHIFT. -/
inductive Agent where
  | host
  | eng
  | shift
  | txch
  | rxch
  deriving DecidableEq, Repr, Inhabited

/-- What the attached chip is handed, in the order it is emitted (rule R39). -/
inductive SlaveEvent where
  | csFall
  | csRise
  | rstFall
  | rstRise
  | exchange (o : Byte)
  deriving DecidableEq, Repr

/-- A range of addresses `base .. base + size - 1`. -/
structure Region where
  base : Nat
  size : Nat
  deriving DecidableEq, Repr

/-- The open parameters of rule R6 that a command's meaning depends on. They are fixed for a machine: no step writes
them (log entries 4 and 5). -/
structure Params where
  /-- `BURST_PATH`: whether the burst operations exist (rules R6 and R77). -/
  burstPath : Bool
  /-- `Alloc`: the memory the host has allocated as buffers (rules R6 and R52), less `devices`. -/
  buffers : List Region
  /-- Addresses of device registers, which are never ordinary buffer memory (rule R56; U11). -/
  devices : List Region
  deriving DecidableEq, Repr

namespace Config

/-- `FILL`, the filler byte of a byte read and of a burst read (rules R6 and R37; conflict C7). -/
def fill : Byte := 0xFF

/-- `F_SYS`, the system clock in Hz (rule R6). -/
def fSys : Nat := 50000000

/-- `F_SCK_TARGET`, the target of the serial clock in Hz (rules R6 and R191); no rule depends on it. The spec says "about 50
MHz": that it is exactly 50 MHz is the model's choice (log entry 26). -/
def fSckTarget : Nat := 50000000

/-- `T_RST_LOW_MIN` = 100 ms, in periods of `clk_sys` (rules R6 and R141). -/
def tRstLowMin : Nat := 100 * fSys / 1000

/-- `T_RST_HIGH_MIN` = 100 ms, in periods of `clk_sys` (rules R6 and R141). -/
def tRstHighMin : Nat := 100 * fSys / 1000

/-- `DMA_WIDTH`: `c.WIDTH` of both channels, in bits (rules R6, R31 and R32). -/
def dmaWidth : Nat := 8

/-- `c.CLAIMED` of both channels (rules R31 and R32). -/
def channelClaimed : Bool := true

/-- `N_CS` and `N_DMA` (rule R6). -/
def nCs : Nat := 1

@[inherit_doc nCs] def nDma : Nat := 2

/-- FREE VALUE (U17): `SCK_DIV`, the ratio `F_SYS / F_SCK` actually used, open; no rule depends on it (rule R6; decision
D9). That it is a natural number, so a whole ratio, is the model's choice (log entry 26). -/
opaque sckDiv : Nat

/-- FREE VALUE (U13, U18): the byte the real attached chip answers to an exchange of the given outbound byte, after the
given history, latest event first. Log entry 3. -/
opaque chipAnswer : List SlaveEvent → Byte → Byte

/-- FREE VALUE (U16): by how many periods of `clk_sys` a hold of the reset sequence lasts longer than its lower bound.
Log entry 9. -/
opaque holdExtra : Nat → Nat

/-- FREE VALUE (U15): the agent the arbiter prefers when `State.arb` names none. Log entry 10. -/
opaque arbPick : Nat → Agent

end Config

end Sys2Proof
end

