-- ==== Sys2Proof/WellFormed.lean ====
section
/-!
DEFINITION. Which commands a word can carry (spec/30_encoding.md rules R75 and R76): a burst of length 0 is encodable
and is outside the contract, so it is no well-formed command. Every other operand value is allowed.
-/

namespace Sys2Proof

/-- The check on a command's operands: a burst has `len ≠ 0` (rules R73 and R76). -/
def Instr.wellFormed : Instr → Bool
  | .sel => true
  | .desel => true
  | .rdb => true
  | .wrb _ => true
  | .rdburst _ len => len != 0
  | .wrburst _ len => len != 0
  | .crst => true

/-- The commands that exist only when `BURST_PATH` is true (rule R77). -/
def Instr.isBurst : Instr → Bool
  | .sel => false
  | .desel => false
  | .rdb => false
  | .wrb _ => false
  | .rdburst _ _ => true
  | .wrburst _ _ => true
  | .crst => false

end Sys2Proof
end

