-- ==== Sys2Proof/Decode.lean ====
section
/-!
DEFINITION. The decoder of command words, total on all 2^64 words and rejecting by name (spec/30_encoding.md rules R70,
R71, R73 to R77), the encoder written from the same formats, and the opcode map of rule R74 as rows of match and mask.
-/

namespace Sys2Proof

/-- Why a word is reserved (rules R76 and R77). -/
inductive Reserved where
  /-- An opcode other than 0x01 to 0x07 (rule R76; U6). -/
  | opcode
  /-- A must-be-zero field is not zero (rule R76; U6). -/
  | mustBeZero
  /-- A burst with `len = 0` (rule R76; U4). -/
  | zeroLength
  /-- A burst opcode in a block built without the burst path (rule R77; U7). -/
  | burstPathAbsent
  deriving DecidableEq, Repr

/-- What a word decodes to: a command, or `Reserved(w)` with its reason (rule R73). -/
inductive Decoded where
  | command (i : Instr)
  | reserved (r : Reserved)
  deriving DecidableEq, Repr

/-- `op = w[63:56]`, in every format (rules R70 and R71). -/
def opField (w : Word) : BitVec 8 := w.extractLsb' 56 8

/-- `w[55:0]`, must be zero in format N (rule R71). -/
def zeroFieldN (w : Word) : BitVec 56 := w.extractLsb' 0 56

/-- `w[55:8]`, must be zero in format B (rule R71). -/
def zeroFieldB (w : Word) : BitVec 48 := w.extractLsb' 8 48

/-- `data = w[7:0]` of format B (rule R75). -/
def dataField (w : Word) : Byte := w.extractLsb' 0 8

/-- `len = w[55:32]` of format M (rule R75). -/
def lenField (w : Word) : Len := w.extractLsb' 32 24

/-- `addr = w[31:0]` of format M (rule R75). -/
def addrField (w : Word) : Addr := w.extractLsb' 0 32

/-- Format N: the command when `w[55:0] = 0` (rule R73). -/
def decodeN (i : Instr) (w : Word) : Decoded :=
  if zeroFieldN w = 0 then .command i else .reserved .mustBeZero

/-- Format B: `WRB(w[7:0])` when `w[55:8] = 0` (rule R73). -/
def decodeB (w : Word) : Decoded :=
  if zeroFieldB w = 0 then .command (.wrb (dataField w)) else .reserved .mustBeZero

/-- Format M: the burst when `BURST_PATH` is true and `len ≠ 0` (rules R73 and R77). Where both fail, the absent burst path
is the reason named (log entry 12). -/
def decodeM (burstPath : Bool) (mk : Addr → Len → Instr) (w : Word) : Decoded :=
  if burstPath then
    if lenField w = 0 then .reserved .zeroLength else .command (mk (addrField w) (lenField w))
  else .reserved .burstPathAbsent

/-- `decode(w)` (rule R73), for a block built with or without the burst path. -/
def decode (burstPath : Bool) (w : Word) : Decoded :=
  let op := opField w
  if op = 0x01 then decodeN .sel w
  else if op = 0x02 then decodeN .desel w
  else if op = 0x03 then decodeN .rdb w
  else if op = 0x04 then decodeB w
  else if op = 0x05 then decodeM burstPath .rdburst w
  else if op = 0x06 then decodeM burstPath .wrburst w
  else if op = 0x07 then decodeN .crst w
  else .reserved .opcode

/-- The `op` value of a command (rule R74). -/
def opcodeOf : Instr → BitVec 8
  | .sel => 0x01
  | .desel => 0x02
  | .rdb => 0x03
  | .wrb _ => 0x04
  | .rdburst _ _ => 0x05
  | .wrburst _ _ => 0x06
  | .crst => 0x07

/-- The low 56 bits of a command's word, by its format (rule R71). -/
def operandBits : Instr → BitVec 56
  | .sel => 0
  | .desel => 0
  | .rdb => 0
  | .wrb data => (0 : BitVec 48) ++ data
  | .rdburst addr len => len ++ addr
  | .wrburst addr len => len ++ addr
  | .crst => 0

/-- The word of a command: `op ++ operands` (rules R70, R71 and R74). -/
def encode (i : Instr) : Word := opcodeOf i ++ operandBits i

/-- One row of rule R74's opcode map: a word is the row's command when `w & mask = match`, and for the two burst rows
also `len ≠ 0`. -/
structure OpcodeRow where
  mask : Word
  pattern : Word
  needsLength : Bool
  deriving DecidableEq, Repr

/-- The seven rows of rule R74's map, in its order. -/
def opcodeMap : List OpcodeRow :=
  [ ⟨0xFFFFFFFFFFFFFFFF, 0x0100000000000000, false⟩,
    ⟨0xFFFFFFFFFFFFFFFF, 0x0200000000000000, false⟩,
    ⟨0xFFFFFFFFFFFFFFFF, 0x0300000000000000, false⟩,
    ⟨0xFFFFFFFFFFFFFF00, 0x0400000000000000, false⟩,
    ⟨0xFF00000000000000, 0x0500000000000000, true⟩,
    ⟨0xFF00000000000000, 0x0600000000000000, true⟩,
    ⟨0xFFFFFFFFFFFFFFFF, 0x0700000000000000, false⟩ ]

/-- The place of a command's row in `opcodeMap` (rule R74). -/
def rowOf : Instr → Nat
  | .sel => 0
  | .desel => 1
  | .rdb => 2
  | .wrb _ => 3
  | .rdburst _ _ => 4
  | .wrburst _ _ => 5
  | .crst => 6

/-- A word matches a row (rule R74). -/
def OpcodeRow.matches (r : OpcodeRow) (w : Word) : Bool :=
  (w &&& r.mask == r.pattern) && (!r.needsLength || lenField w != 0)

/-- The command read from a word numbered as spec/opcode_table.json numbers it. A command is ONE 64-bit word on a port
and has no byte order (rules R53 and R70), so bit k of `w` is bit k of the word; bits above `nbits` are 0. The block is
taken to have the burst path (log entry 4). -/
def decodeTableWord (nbits w : Nat) : Option Instr :=
  if 64 < nbits then none
  else
    match decode true (BitVec.ofNat 64 (w % 2 ^ nbits)) with
    | .command i => some i
    | .reserved _ => none

end Sys2Proof
end

