-- ==== Sys2Proof/Machine/State.lean ====
section
/-!
DEFINITION. The state of the block as spec/10_state.md rules R22 and R31 list it, what stands outside it (memory, the
attached chip, the open parameters, what the host does next), the reasons a step stops, and the state after block reset
(rule R43). State is plain data.
-/

namespace Sys2Proof.Machine

/-- A location a channel reads or writes (rule R37). -/
inductive Loc where
  /-- `MemLoc(a)`, a byte of memory. -/
  | mem (a : Addr)
  /-- `FillSrc`, which always reads `FILL`. -/
  | fillSrc
  /-- `ScratchSink`, the internal byte `SCRATCH`. -/
  | scratchSink
  /-- `DataReg`, the bus data register `DR`. -/
  | dataReg
  deriving DecidableEq, Repr

/-- The written fields of one DMA channel (rule R31, CR3 to CR8); its three constants are in Config.lean. -/
structure Channel where
  /-- CR3 `INCR_R`. -/
  incrR : Bool
  /-- CR4 `INCR_W`. -/
  incrW : Bool
  /-- CR5 `RADDR`. -/
  raddr : Loc
  /-- CR6 `WADDR`. -/
  waddr : Loc
  /-- CR7 `COUNT`. -/
  count : Len
  /-- CR8 `BUSY`. -/
  busy : Bool
  deriving DecidableEq, Repr

/-- A bus event (rule R40). -/
inductive BusEvent where
  | csFall
  | csRise
  | rstFall
  | rstRise
  /-- `Xchg(o, i, cs)`: outbound byte, inbound byte, level of CSn at the exchange. -/
  | xchg (o i : Byte) (cs : Level)
  deriving DecidableEq, Repr

/-- A completion on the response port (rules R44 and R72). -/
inductive Completion where
  /-- `Complete()`: the six commands that return no data. -/
  | bare
  /-- `Complete(b)`: `RDB`. -/
  | byte (b : Byte)
  deriving DecidableEq, Repr

/-- The mode of the fixture slave `SimMem` (spec/95_test_vectors.md section 2). -/
inductive SimMode where
  | idle
  | cmd
  | write
  | read
  deriving DecidableEq, Repr

/-- The attached chip as a value (rule R39): the real chip, whose answers are free, or one of the named fixtures of
spec/95_test_vectors.md section 2. Log entry 3. -/
inductive Slave where
  /-- The real chip, with all it has been handed since power-on, latest first. -/
  | chip (hist : List SlaveEvent)
  /-- `Wire`: MISO tied to MOSI. -/
  | wire
  /-- `Const(c)`. -/
  | const (c : Byte)
  /-- `Script(b0, ..., bm)`, the bytes not yet given. -/
  | script (rest : List Byte)
  /-- `SimMem`, a storing slave. -/
  | simMem (mode : SimMode) (store : List Byte) (rp : Nat)
  deriving DecidableEq, Repr

/-- What the outside does next (log entry 2). -/
inductive Input where
  /-- HOST offers a word at the command port and blocks until its completion (rules R21 and R41); the command is run as
  one step, the big step of rule R9. -/
  | command (w : Word)
  /-- The same, and the command is run agent by agent, in the small steps of rule R9 (log entry 1). -/
  | stepwise (w : Word)
  /-- HOST stores a byte in memory between commands (rules R50 and R60). -/
  | store (a : Addr) (v : Byte)
  /-- The outside does nothing for one step. -/
  | wait
  /-- `rst_n` is asserted (rules R43 and R170). -/
  | blockReset
  deriving DecidableEq, Repr

/-- Memory: the listed bytes, by strictly rising address; any other byte reads `Memory.unlisted`. -/
abbrev Memory := List Host.Cell

/-- What an address no entry lists reads as. DESIGN CHOICE, unsafe: the spec gives no power-on contents (log entry 7). -/
def Memory.unlisted : Byte := 0x00

/-- The canonical form: strictly rising addresses inside the address space of rule R50, no entry that equals what an
unlisted address reads as. -/
abbrev Memory.wf (m : Memory) : Prop :=
  m.Pairwise (fun c d => c.1 < d.1) ∧ ∀ c ∈ m, c.1 < 2 ^ 32 ∧ c.2 ≠ Memory.unlisted

/-- Everything the machine is (rule R22, and what stands around it). -/
structure State where
  /-- `CS`, the level of CSn (rule R23). -/
  cs : Level
  /-- `RSTL`, the level of RSTn (rule R24). -/
  rstl : Level
  /-- `RSTD`, reset done (rule R25). -/
  rstd : Bool
  /-- `TXD` (rule R26). -/
  txd : Byte
  /-- `TXF` (rule R26). -/
  txf : Bool
  /-- `RXD` (rule R26). -/
  rxd : Byte
  /-- `RXF` (rule R26). -/
  rxf : Bool
  /-- The transmit channel `TX` (rules R30 and R31). -/
  tx : Channel
  /-- The receive channel `RX` (rules R30 and R31). -/
  rx : Channel
  /-- `SCRATCH` (rule R37). -/
  scratch : Byte
  /-- `CMDBUSY` (rule R41). -/
  cmdBusy : Bool
  /-- `CUR`, the command being executed (rule R41). -/
  cur : Option Instr
  /-- `PH`, the phase inside the command (rule R41). -/
  ph : Nat
  /-- `TRACE`, the ghost history, oldest first (rule R40). -/
  trace : List BusEvent
  /-- The hold timer inside ENG, in periods of `clk_sys` (rules R140 and R161; log entry 9). -/
  timer : Nat
  /-- Ghost: the length of the low hold of the last reset sequence (rule R141; log entry 9). -/
  holdLow : Nat
  /-- Ghost: the length of the high hold of the last reset sequence (rule R141; log entry 9). -/
  holdHigh : Nat
  /-- The response port: the completion given last, none while a command runs (rules R44 and R72; log entry 8). -/
  resp : Option Completion
  /-- `Mem`, outside the block (rules R38 and R50). -/
  mem : Memory
  /-- The attached chip, outside the block (rule R39). -/
  slave : Slave
  /-- The open parameters (rule R6). -/
  params : Params
  /-- What the outside does next, first first (log entry 2). -/
  inputs : List Input
  /-- The agents the arbiter prefers next, first first: the parameter `ARB` (rule R125; log entry 10). -/
  arb : List Agent
  /-- The counter free values are drawn with; the model's own (log entries 9 and 10). -/
  draws : Nat
  deriving DecidableEq, Repr

/-- Why the machine faults. The block itself raises nothing (rules R150 and R151). -/
inductive Fault where
  /-- Raised by `engineStep` (and so `step`) in a state with a command in progress in which no agent has an enabled
  step and no hold is running. Rules R130 and R190 exclude it in every reachable state. Safe: the model stops where the
  spec gives no step. -/
  | stuck
  deriving DecidableEq, Repr

/-- Why the spec gives a step no meaning: the `NoMeaning(U<n>)` of spec/93_implementation_defined.md section 1. All are
safe: the model stops where the spec promises nothing (rule R151). -/
inductive Refusal where
  /-- Raised only by a refused arm of `exec`: an instruction the model gives no meaning. Safe. -/
  | notModelled (mnemonic : String)
  /-- U1, raised by `RDB`, `WRB`, `RDBURST`, `WRBURST` with CSn high. Safe. -/
  | transferOutsideSpan
  /-- U2, raised by `SEL` with CSn low. Safe. -/
  | nestedSelect
  /-- U3, raised by `DESEL` with CSn high. Safe. -/
  | deselectWithoutSpan
  /-- U4, raised by a burst of length 0, by its word and by its command. Safe. -/
  | zeroLength
  /-- U5, raised by a burst whose range wraps or is not wholly in `Alloc`, and by a channel access outside `Alloc`.
  Safe. -/
  | bufferNotAllocated
  /-- U6, raised by a word with an unknown opcode. Safe. -/
  | reservedOpcode
  /-- U6, raised by a word whose must-be-zero field is not zero. Safe. -/
  | reservedField
  /-- U7, raised by a burst in a block without the burst path, by its word and by its command. Safe. -/
  | burstPathAbsent
  /-- U8, raised by `SEL` before a `CRST` has completed. Safe. -/
  | selectBeforeChipReset
  /-- Raised by `issue`, so by `exec` and `accept`, applied while a command is in progress. The spec says only that the word
  waits at the port (U9), and `step` leaves it there and never makes this application. Safe (log entry 13). -/
  | portBusy
  /-- U11, raised by a burst whose buffer touches a device register. Safe. -/
  | deviceBuffer
  /-- U14, raised by `CRST` with CSn low. Safe. -/
  | chipResetInsideSpan
  /-- Raised by a channel step with a combination of location and access that rule R37 says never occurs. Safe. -/
  | noSuchAccess
  deriving DecidableEq, Repr

/-- A channel after block reset (rule R43). The addresses are unspecified there: DESIGN CHOICE, unsafe, log entry 6. -/
def Channel.reset : Channel :=
  { incrR := false, incrW := false, raddr := .mem 0, waddr := .mem 0, count := 0, busy := false }

/-- The open parameters `State.reset` takes. DESIGN CHOICE, unsafe, log entries 4 and 5: the burst path is present and
the host has allocated the whole address space. -/
def Params.reset : Params :=
  { burstPath := true, buffers := [⟨0, 2 ^ 32⟩], devices := [] }

/-- The machine right after block reset (rule R43), with nothing done yet outside it. TXD, RXD and SCRATCH are
unspecified there: DESIGN CHOICE, unsafe, log entry 6. -/
def State.reset : State :=
  { cs := .high, rstl := .high, rstd := false
    txd := 0x00, txf := false, rxd := 0x00, rxf := false
    tx := Channel.reset, rx := Channel.reset, scratch := 0x00
    cmdBusy := false, cur := none, ph := 0, trace := []
    timer := 0, holdLow := 0, holdHigh := 0, resp := none
    mem := [], slave := .chip [], params := Params.reset
    inputs := [], arb := [], draws := 0 }

end Sys2Proof.Machine
end

