-- ==== Sys2Proof/Machine/Slave.lean ====
section
/-!
DEFINITION. The attached chip as an oracle (spec/10_state.md rule R39): how it is handed the four line events and how
it answers an exchange. The real chip's answers are free (U13, U18); the fixtures answer as spec/95_test_vectors.md
section 2 says.
-/

namespace Sys2Proof.Machine

/-- `csFall` (rule R39). -/
def Slave.csFall : Slave → Slave
  | .chip h => .chip (.csFall :: h)
  | .simMem _ st rp => .simMem .cmd st rp
  | .wire => .wire
  | .const c => .const c
  | .script r => .script r

/-- `csRise` (rule R39). -/
def Slave.csRise : Slave → Slave
  | .chip h => .chip (.csRise :: h)
  | .simMem _ st rp => .simMem .idle st rp
  | .wire => .wire
  | .const c => .const c
  | .script r => .script r

/-- `rstFall` (rule R39). -/
def Slave.rstFall : Slave → Slave
  | .chip h => .chip (.rstFall :: h)
  | .simMem _ _ _ => .simMem .idle [] 0
  | .wire => .wire
  | .const c => .const c
  | .script r => .script r

/-- `rstRise` (rule R39). -/
def Slave.rstRise : Slave → Slave
  | .chip h => .chip (.rstRise :: h)
  | .simMem m st rp => .simMem m st rp
  | .wire => .wire
  | .const c => .const c
  | .script r => .script r

/-- `exchange` of `SimMem` (spec/95_test_vectors.md section 2). -/
def simMemExchange (mode : SimMode) (store : List Byte) (rp : Nat) (o : Byte) : Byte × Slave :=
  match mode with
  | .cmd =>
    if o = 0x01 then (0x00, .simMem .write [] rp)
    else if o = 0x02 then (0x00, .simMem .read store 0)
    else (0x00, .simMem .idle store rp)
  | .write => (0x00, .simMem .write (store ++ [o]) rp)
  | .read => (store.getD rp 0x00, .simMem .read store (rp + 1))
  | .idle => (0x00, .simMem .idle store rp)

/-- `exchange : σ -> Byte -> σ × Byte` (rule R39): the answer, and the slave after it. -/
def Slave.exchange : Slave → Byte → Byte × Slave
  | .chip h, o => (Config.chipAnswer h o, .chip (.exchange o :: h))
  | .wire, o => (o, .wire)
  | .const c, _ => (c, .const c)
  | .script [], _ => (0x00, .script [])
  | .script (b :: r), _ => (b, .script r)
  | .simMem mode store rp, o => simMemExchange mode store rp o

/-- What the slave is handed when a bus event is emitted; an exchange was handed over by `exchange` (rules R39, R40). -/
def Slave.notice (sl : Slave) : BusEvent → Slave
  | .csFall => sl.csFall
  | .csRise => sl.csRise
  | .rstFall => sl.rstFall
  | .rstRise => sl.rstRise
  | .xchg _ _ _ => sl

/-- The slave asked for one outbound byte after another: its answers in order, and the slave after them. -/
def Slave.answers : Slave → List Byte → List Byte × Slave
  | sl, [] => ([], sl)
  | sl, o :: os =>
    let r := sl.exchange o
    let rs := r.2.answers os
    (r.1 :: rs.1, rs.2)

end Sys2Proof.Machine
end

