-- ==== Sys2Proof/Machine/Ops.lean ====
section
/-!
DEFINITION. The named operations over memory and the block's fields: the primitives of spec/00_scope.md rule R8, the
data register (spec/10_state.md rule R29), locations (rule R37), completion and acceptance (rule R41), and block reset
(rules R43 and R170). The block has no exception to take and nothing to return from (spec/60_exceptions.md rules R150,
R158 and R159), so there is no such operation.
-/

namespace Sys2Proof.Machine

/-- One byte of memory (rules R50 and R55). -/
def Memory.read : Memory → Nat → Byte
  | [], _ => Memory.unlisted
  | (k, v) :: m, a => if k = a then v else Memory.read m a

/-- One byte stored, in canonical form: storing what an unlisted address reads as removes the entry. -/
def Memory.write : Memory → Nat → Byte → Memory
  | [], a, v => if v = Memory.unlisted then [] else [(a, v)]
  | (k, w) :: m, a, v =>
    if a < k then (if v = Memory.unlisted then (k, w) :: m else (a, v) :: (k, w) :: m)
    else if a = k then (if v = Memory.unlisted then m else (a, v) :: m)
    else (k, w) :: Memory.write m a v

/-- `MemRead(a, 1)` (rules R8 and R55), for an address in `Alloc`. -/
def memRead (s : State) (a : Addr) : Byte := s.mem.read a.toNat

/-- `MemWrite(a, 1, v)` (rules R8 and R55), for an address in `Alloc`. -/
def memWrite (a : Addr) (v : Byte) (s : State) : State :=
  { s with mem := s.mem.write a.toNat v }

/-- A load of HOST: it sees memory as the steps so far left it and changes nothing (rules R56 and R60). Rule R56 says so of
`Alloc`; that it holds at every other address too, a device register among them, is the model's choice (log entry 21). -/
def hostLoad (s : State) (a : Addr) : Byte := s.mem.read a.toNat

/-- A store of HOST between commands (rules R50 and R60). That it changes that one byte at every address, as rule R56 says of
`Alloc`, a device register among them, is the model's choice (log entry 21). -/
def hostStore (a : Addr) (v : Byte) (s : State) : State :=
  { s with mem := s.mem.write a.toNat v }

/-- A region holds an address. -/
def regionHas (r : Region) (x : Nat) : Bool := r.base ≤ x && x < r.base + r.size

/-- `x` is a device register (rule R56; log entry 17). -/
def onDevice (p : Params) (x : Nat) : Bool := p.devices.any (regionHas · x)

/-- `x ∈ Alloc` (rule R52): allocated by the host, and ordinary memory (rule R56). -/
def inAlloc (p : Params) (x : Nat) : Bool := p.buffers.any (regionHas · x) && !onDevice p x

/-- `Emit(e)`: appends `e` to the trace (rules R8 and R40), and hands a line event to the slave (rule R39). -/
def emit (e : BusEvent) (s : State) : State :=
  { s with trace := s.trace ++ [e], slave := s.slave.notice e }

/-- `Exchange(o)`: hands `o` to the attached chip and returns the byte it answers (rules R8 and R39). -/
def exchange (o : Byte) (s : State) : Byte × State :=
  ((s.slave.exchange o).1, { s with slave := (s.slave.exchange o).2 })

/-- `DRWrite(v)` on a data register whose `TXF` is false (rule R29). -/
def drWrite (v : Byte) (s : State) : State := { s with txd := v, txf := true }

/-- `DRRead()` on a data register whose `RXF` is true: the byte is `s.rxd`, and this is the state after (rule R29). -/
def drRead (s : State) : State := { s with rxf := false }

/-- One whole byte transfer as the big steps write it (rules R100, R101, R110 and R111): one exchange, its event, and
the left-over contents of the data register with its flags false. -/
def transfer (o : Byte) (s : State) : State :=
  let r := exchange o s
  emit (.xchg o r.1 s.cs) { r.2 with txd := o, rxd := r.1, txf := false, rxf := false }

/-- `Complete()` and `Complete(b)`: `CMDBUSY <- false; CUR <- none; PH <- 0`, and the completion on the response port
(rules R8, R41 and R72). -/
def complete (c : Completion) (s : State) : State :=
  { s with cmdBusy := false, cur := none, ph := 0, resp := some c }

/-- What `Accept(w)` does with the decoded command: `CMDBUSY <- true; CUR <- decode(w); PH <- 0` (rule R41). No
completion stands on the response port while the command runs (rule R44; log entry 8). -/
def accepted (i : Instr) (s : State) : State :=
  { s with cmdBusy := true, cur := some i, ph := 0, resp := none }

/-- `MemLoc(a) + 1 = MemLoc((a + 1) mod 2^AW)` (rules R37 and R126). The other three locations are fixed and are never
incremented, so the spec defines no sum for them: that the sum is the same location is the model's choice, which no run
reaches (rule R34; log entry 25). -/
def Loc.next : Loc → Loc
  | .mem a => .mem (a + 1)
  | .fillSrc => .fillSrc
  | .scratchSink => .scratchSink
  | .dataReg => .dataReg

/-- `LocRead(l)` for the transmit channel (rule R37): memory, or the filler. `MemRead` outside `Alloc` has no meaning
(rule R52), and no channel reads another location this way (rule R37; log entry 18). -/
def locRead (l : Loc) (s : State) : Except Refusal Byte :=
  match l with
  | .mem a => if inAlloc s.params a.toNat then .ok (memRead s a) else .error .bufferNotAllocated
  | .fillSrc => .ok Config.fill
  | .scratchSink => .error .noSuchAccess
  | .dataReg => .error .noSuchAccess

/-- `LocWrite(l, v)` for the receive channel (rule R37): memory, or the scratch byte. `MemWrite` outside `Alloc` has no
meaning (rule R52), and no channel writes another location this way (rule R37; log entry 18). -/
def locWrite (l : Loc) (v : Byte) (s : State) : Except Refusal State :=
  match l with
  | .mem a => if inAlloc s.params a.toNat then .ok (memWrite a v s) else .error .bufferNotAllocated
  | .scratchSink => .ok { s with scratch := v }
  | .fillSrc => .error .noSuchAccess
  | .dataReg => .error .noSuchAccess

/-- Block reset (rules R43 and R170 to R172): every field of the block at its reset value, the running command
abandoned without a completion, no event emitted. Memory, the attached chip, the parameters, what the outside does next
and the model's own counters are not the block's and stay (log entry 11). -/
def blockReset (s : State) : State :=
  { State.reset with
    mem := s.mem, slave := s.slave, params := s.params, inputs := s.inputs, arb := s.arb, draws := s.draws }

end Sys2Proof.Machine
end

