-- ==== Sys2Proof/Machine/Flags.lean ====
section
/-!
DEFINITION. The flags (spec/10_state.md rule R46): the request signals that are functions of the data register's flags
(rule R27), the pacing of the channels (rules R31 and R32), the step of a channel's count and completion flag (rules
R33, R122, R123, R127) and the idle condition (rule R42). The block has no condition codes.
-/

namespace Sys2Proof.Machine

/-- A request signal (rule R27). -/
inductive Request where
  | txReq
  | rxReq
  deriving DecidableEq, Repr

/-- One of the two channels (rule R30). -/
inductive ChannelId where
  | tx
  | rx
  deriving DecidableEq, Repr

/-- `c.PACE`, fixed: `TX.PACE = TXREQ`, `RX.PACE = RXREQ` (rules R31 and R32). -/
def pace : ChannelId → Request
  | .tx => .txReq
  | .rx => .rxReq

/-- `TXREQ = not S.TXF` and `RXREQ = S.RXF` (rule R27). -/
def requested : Request → State → Bool
  | .txReq, s => !s.txf
  | .rxReq, s => s.rxf

/-- The shifter may exchange: `S.TXF = true and S.RXF = false` (rules R28 and R102). -/
def shiftReady (s : State) : Bool := s.txf && !s.rxf

/-- What a channel does to its own registers after one transfer: the addresses step when their increment flag is set,
the count goes down by one, and the channel stops being busy when it is 0 (rules R122, R123, R126 and R127). The count never
goes below 0: that a busy channel with a count of 0, which rule R33 excludes, would wrap to 2^24 - 1 and stay busy is the
model's choice (log entry 27). -/
def Channel.stepped (c : Channel) : Channel :=
  { c with
    raddr := if c.incrR then c.raddr.next else c.raddr
    waddr := if c.incrW then c.waddr.next else c.waddr
    count := c.count - 1
    busy := if c.count - 1 = 0 then false else c.busy }

/-- The four increment flags cleared, the first action of every burst (rule R114). -/
def Channel.flagsCleared (c : Channel) : Channel := { c with incrR := false, incrW := false }

/-- The idle condition: an empty data register, idle channels and no command in progress (rules R41 and R42). -/
abbrev quiet (s : State) : Prop :=
  s.txf = false ∧ s.rxf = false ∧ s.tx.busy = false ∧ s.rx.busy = false ∧ s.tx.count = 0 ∧ s.rx.count = 0

end Sys2Proof.Machine
end

