-- ==== Sys2Proof/Machine/Operands.lean ====
section
/-!
DEFINITION. The operands of the bursts and the host's contract for each command (spec/40_chip_select.md rule R92 and the
preconditions of rules R90, R91, R100, R101, R110, R111 and R140). A broken contract is `NoMeaning`, which the model
refuses by name (spec/60_exceptions.md rule R151); where several are broken any name will do (rule R157; log entry 12).
-/

namespace Sys2Proof.Machine

/-- Every address `x .. x + n - 1` is in `Alloc` (rule R52). -/
def allInAlloc (p : Params) : Nat → Nat → Bool
  | _, 0 => true
  | x, n + 1 => inAlloc p x && allInAlloc p (x + 1) n

/-- Some address `x .. x + n - 1` is a device register (rule R56). -/
def anyOnDevice (p : Params) : Nat → Nat → Bool
  | _, 0 => false
  | x, n + 1 => onDevice p x || anyOnDevice p (x + 1) n

/-- A burst at `a` of length `n` is within its contract: no wrap, and all of it allocated (rules R52 and R185). -/
def bufferOk (p : Params) (a : Addr) (n : Len) : Bool :=
  decide (a.toNat + n.toNat ≤ 2 ^ 32) && allInAlloc p a.toNat n.toNat

/-- The address after a burst's last byte, `(a + n) mod 2^AW` (rules R35 and R126). -/
def bufferEnd (a : Addr) (n : Len) : Addr := a + n.setWidth 32

/-- The contract of `SEL` (rule R90): U2, U8. -/
def selContract (s : State) : Option Refusal :=
  if s.cs = .low then some .nestedSelect
  else if s.rstd then none
  else some .selectBeforeChipReset

/-- The contract of `DESEL` (rule R91): U3. -/
def deselContract (s : State) : Option Refusal :=
  if s.cs = .high then some .deselectWithoutSpan else none

/-- The contract every transfer command shares (rules R92, R100 and R101): U1. -/
def transferContract (s : State) : Option Refusal :=
  if s.cs = .high then some .transferOutsideSpan else none

/-- Why a burst's buffer is outside its contract: U11 where it touches a device register, else U5. -/
def bufferRefusal (p : Params) (a : Addr) (n : Len) : Refusal :=
  if anyOnDevice p a.toNat n.toNat then .deviceBuffer else .bufferNotAllocated

/-- The contract of both bursts (rules R110 and R111): U1, U7, U4, U5, U11. -/
def burstContract (a : Addr) (n : Len) (s : State) : Option Refusal :=
  if s.cs = .high then some .transferOutsideSpan
  else if !s.params.burstPath then some .burstPathAbsent
  else if n = 0 then some .zeroLength
  else if bufferOk s.params a n then none
  else some (bufferRefusal s.params a n)

/-- The contract of `CRST` (rule R140): U14. -/
def crstContract (s : State) : Option Refusal :=
  if s.cs = .low then some .chipResetInsideSpan else none

/-- The host's contract for a command: the name of what is broken, or none. -/
def contract : Instr → State → Option Refusal
  | .sel, s => selContract s
  | .desel, s => deselContract s
  | .rdb, s => transferContract s
  | .wrb _, s => transferContract s
  | .rdburst a n, s => burstContract a n s
  | .wrburst a n, s => burstContract a n s
  | .crst, s => crstContract s

/-- A command run to its completion from an idle command port (rules R9, R41 and R151): refused while another command
is in progress (the model's choice: log entry 13) or when its contract is broken, else the state the big step gives. -/
def issue (broken : Option Refusal) (bigStep : State → State) (s : State) : Host.Outcome State Fault Refusal :=
  if s.cmdBusy then .refused .portBusy
  else
    match broken with
    | some r => .refused r
    | none => .next (bigStep s)

end Sys2Proof.Machine
end

