-- ==== Sys2Proof/Machine/BurstTransfer.lean ====
section
/-!
DEFINITION. The bursts `RDBURST` and `WRBURST` (spec/42_burst_transfer.md rules R110 and R111), big steps. The small
steps of the channels are in Machine/Agents.lean.
-/

namespace Sys2Proof.Machine

/-- The loop of `RDBURST`'s big step: `n` transfers of `FILL`, the k-th inbound byte stored at `a + k` (rule R110). -/
def rdburstLoop : Nat → Addr → State → State
  | 0, _, s => s
  | n + 1, a, s =>
    let t := transfer Config.fill s
    rdburstLoop n (a + 1) (memWrite a t.rxd t)

/-- The transmit channel after a read burst (rules R35 and R110). -/
def txAfterRead : Channel :=
  { incrR := false, incrW := false, raddr := .fillSrc, waddr := .dataReg, count := 0, busy := false }

/-- The receive channel after a read burst (rules R35 and R110). -/
def rxAfterRead (a : Addr) (n : Len) : Channel :=
  { incrR := false, incrW := true, raddr := .dataReg, waddr := .mem (bufferEnd a n), count := 0, busy := false }

/-- `RDBURST`'s big step (rule R110). -/
def rdburstStep (a : Addr) (n : Len) (s : State) : State :=
  complete .bare { rdburstLoop n.toNat a s with tx := txAfterRead, rx := rxAfterRead a n }

/-- `RDBURST addr, len` (rule R110). -/
def execRdburst (a : Addr) (n : Len) (s : State) : Host.Outcome State Fault Refusal :=
  issue (burstContract a n s) (rdburstStep a n) s

/-- The loop of `WRBURST`'s big step: `n` transfers of `Mem[a + k]`, each inbound byte into the scratch byte (rule
R111). -/
def wrburstLoop : Nat → Addr → State → State
  | 0, _, s => s
  | n + 1, a, s =>
    let t := transfer (memRead s a) s
    wrburstLoop n (a + 1) { t with scratch := t.rxd }

/-- The transmit channel after a write burst (rules R35 and R111). -/
def txAfterWrite (a : Addr) (n : Len) : Channel :=
  { incrR := true, incrW := false, raddr := .mem (bufferEnd a n), waddr := .dataReg, count := 0, busy := false }

/-- The receive channel after a write burst (rules R35 and R111). -/
def rxAfterWrite : Channel :=
  { incrR := false, incrW := false, raddr := .dataReg, waddr := .scratchSink, count := 0, busy := false }

/-- `WRBURST`'s big step (rule R111). -/
def wrburstStep (a : Addr) (n : Len) (s : State) : State :=
  complete .bare { wrburstLoop n.toNat a s with tx := txAfterWrite a n, rx := rxAfterWrite }

/-- `WRBURST addr, len` (rule R111). -/
def execWrburst (a : Addr) (n : Len) (s : State) : Host.Outcome State Fault Refusal :=
  issue (burstContract a n s) (wrburstStep a n) s

end Sys2Proof.Machine
end

