-- ==== Sys2Proof/Machine/ByteTransfer.lean ====
section
/-!
DEFINITION. The byte transfers `RDB` and `WRB` (spec/41_byte_transfer.md rules R100 and R101), big steps.
-/

namespace Sys2Proof.Machine

/-- `RDB`'s big step: one transfer of `FILL`, and the inbound byte in the completion (rule R100). -/
def rdbStep (s : State) : State :=
  let t := transfer Config.fill s
  complete (.byte t.rxd) t

/-- `RDB` (rule R100). -/
def execRdb (s : State) : Host.Outcome State Fault Refusal := issue (transferContract s) rdbStep s

/-- `WRB`'s big step: one transfer of `data`, the inbound byte discarded (rule R101; decision D13). -/
def wrbStep (data : Byte) (s : State) : State := complete .bare (transfer data s)

/-- `WRB data` (rule R101). -/
def execWrb (data : Byte) (s : State) : Host.Outcome State Fault Refusal :=
  issue (transferContract s) (wrbStep data) s

end Sys2Proof.Machine
end

