-- ==== Sys2Proof/Machine/ChipReset.lean ====
section
/-!
DEFINITION. The chip reset `CRST` (spec/43_chip_reset.md rules R140 to R143), big step. The holds are lower bounds (rule
R141): how much longer each lasts is a free value (U16).
-/

namespace Sys2Proof.Machine

/-- The reset sequence with holds of the given lengths: RSTn low, then high, `RSTD` set, `Complete()` (rule R140). -/
def crstWith (low high : Nat) (s : State) : State :=
  complete .bare
    { emit .rstRise (emit .rstFall { s with rstl := .low }) with
      rstl := .high, rstd := true, holdLow := low, holdHigh := high, timer := 0 }

/-- The length of the next low hold: at least `T_RST_LOW_MIN`, and a free value above it (rule R141; log entry 9). -/
def lowHold (s : State) : Nat := Config.tRstLowMin + Config.holdExtra s.draws

/-- The length of the next high hold: at least `T_RST_HIGH_MIN`, and a free value above it (rule R141; log entry 9). -/
def highHold (s : State) : Nat := Config.tRstHighMin + Config.holdExtra (s.draws + 1)

/-- `CRST`'s big step (rule R140). -/
def crstStep (s : State) : State :=
  { crstWith (lowHold s) (highHold s) s with draws := s.draws + 2 }

/-- `CRST` (rule R140). -/
def execCrst (s : State) : Host.Outcome State Fault Refusal := issue (crstContract s) crstStep s

end Sys2Proof.Machine
end

