-- ==== Sys2Proof/Machine/ChipSelect.lean ====
section
/-!
DEFINITION. The chip-select commands `SEL` and `DESEL` (spec/40_chip_select.md rules R90 and R91).
-/

namespace Sys2Proof.Machine

/-- `S.CS <- Low; Emit(CsFall); Complete()` (rule R90). -/
def selStep (s : State) : State := complete .bare (emit .csFall { s with cs := .low })

/-- `SEL` (rule R90). -/
def execSel (s : State) : Host.Outcome State Fault Refusal := issue (selContract s) selStep s

/-- `S.CS <- High; Emit(CsRise); Complete()` (rule R91). -/
def deselStep (s : State) : State := complete .bare (emit .csRise { s with cs := .high })

/-- `DESEL` (rule R91). -/
def execDesel (s : State) : Host.Outcome State Fault Refusal := issue (deselContract s) deselStep s

end Sys2Proof.Machine
end

