-- ==== Sys2Proof/Machine/Dispatch.lean ====
section
/-!
DEFINITION. One arm per command: the big step of spec/00_scope.md rule R9, from an idle command port to completion.
-/

namespace Sys2Proof.Machine

open Sys2Proof

/-- The meaning of a command (rules R9 and R74). -/
def exec (i : Instr) (s : State) : Host.Outcome State Fault Refusal :=
  match i with
  | .sel => Sys2Proof.Machine.execSel s
  | .desel => Sys2Proof.Machine.execDesel s
  | .rdb => Sys2Proof.Machine.execRdb s
  | .wrb data => Sys2Proof.Machine.execWrb data s
  | .rdburst addr len => Sys2Proof.Machine.execRdburst addr len s
  | .wrburst addr len => Sys2Proof.Machine.execWrburst addr len s
  | .crst => Sys2Proof.Machine.execCrst s

end Sys2Proof.Machine
end

