-- ==== Sys2Proof/Machine/Agents.lean ====
section
/-!
DEFINITION. The small steps inside a command, one per agent (spec/00_scope.md rules R9 and R10): acceptance (rule R41),
the command engine with its burst arbiter (rules R90, R91, R100, R101, R112 to R120, R124, R140), the shifter (rule R102)
and the two channels (rules R122 and R123). Which enabled agent steps next is open (rule R125): a schedule is a list.
-/

namespace Sys2Proof.Machine

/-- The refusal of a reserved word (rules R76 and R77). -/
def reservedRefusal : Reserved → Refusal
  | .opcode => .reservedOpcode
  | .mustBeZero => .reservedField
  | .zeroLength => .zeroLength
  | .burstPathAbsent => .burstPathAbsent

/-- `Accept` of a decoded word (rule R41): enabled when `CMDBUSY` is false. A reserved word and a broken contract have no
meaning (rules R76 and R151). -/
def acceptDecoded (d : Decoded) (s : State) : Host.Outcome State Fault Refusal :=
  match d with
  | .reserved r => .refused (reservedRefusal r)
  | .command i => issue (contract i s) (accepted i) s

/-- `Accept(w)` (rule R41). -/
def accept (w : Word) (s : State) : Host.Outcome State Fault Refusal :=
  acceptDecoded (decode s.params.burstPath w) s

/-- The set-up and start of a read burst, one ENG step (rules R114 to R117). -/
def startRead (a : Addr) (n : Len) (s : State) : State :=
  { s with
    tx := { s.tx.flagsCleared with raddr := .fillSrc, waddr := .dataReg, count := n, busy := true }
    rx := { s.rx.flagsCleared with raddr := .dataReg, waddr := .mem a, incrW := true, count := n, busy := true }
    ph := 1 }

/-- The set-up and start of a write burst, one ENG step (rules R114, R115, R119 and R120). -/
def startWrite (a : Addr) (n : Len) (s : State) : State :=
  { s with
    tx := { s.tx.flagsCleared with raddr := .mem a, waddr := .dataReg, incrR := true, count := n, busy := true }
    rx := { s.rx.flagsCleared with raddr := .dataReg, waddr := .scratchSink, count := n, busy := true }
    ph := 1 }

/-- ENG's step may be taken while command `i` is in phase `ph`. -/
def engReady (i : Instr) (ph : Nat) (s : State) : Bool :=
  match i, ph with
  | .sel, _ => true
  | .desel, _ => true
  | .rdb, 0 => !s.txf
  | .rdb, 1 => s.rxf
  | .rdb, _ => false
  | .wrb _, 0 => !s.txf
  | .wrb _, 1 => s.rxf
  | .wrb _, _ => false
  | .rdburst _ _, 0 => true
  | .rdburst _ _, 1 => !s.rx.busy
  | .rdburst _ _, _ => false
  | .wrburst _ _, 0 => true
  | .wrburst _ _, 1 => !s.rx.busy
  | .wrburst _ _, _ => false
  | .crst, 0 => true
  | .crst, 1 => Config.tRstLowMin ≤ s.timer
  | .crst, 2 => Config.tRstHighMin ≤ s.timer
  | .crst, _ => false

/-- ENG's step in command `i` at phase `ph`: phase 0, the last phase, and for `CRST` the one between (the "Small steps"
of rules R90, R91, R100, R101, R110, R111, R124 and R140). -/
def engAct (i : Instr) (ph : Nat) (s : State) : State :=
  match i, ph with
  | .sel, _ => selStep s
  | .desel, _ => deselStep s
  | .rdb, 0 => { drWrite Config.fill s with ph := 1 }
  | .rdb, _ => complete (.byte s.rxd) (drRead s)
  | .wrb data, 0 => { drWrite data s with ph := 1 }
  | .wrb _, _ => complete .bare (drRead s)
  | .rdburst a n, 0 => startRead a n s
  | .rdburst _ _, _ => complete .bare s
  | .wrburst a n, 0 => startWrite a n s
  | .wrburst _ _, _ => complete .bare s
  | .crst, 0 => { emit .rstFall { s with rstl := .low } with ph := 1, timer := 0 }
  | .crst, 1 => { emit .rstRise { s with rstl := .high } with ph := 2, holdLow := s.timer, timer := 0 }
  | .crst, _ => complete .bare { s with rstd := true, holdHigh := s.timer, timer := 0 }

/-- The shifter step `SHIFT` (rule R102). -/
def shiftAct (s : State) : State :=
  let r := exchange s.txd s
  emit (.xchg s.txd r.1 s.cs) { r.2 with txf := false, rxd := r.1, rxf := true }

/-- The transmit channel step `TXCH` (rule R122). -/
def txAct (s : State) : Host.Outcome State Fault Refusal :=
  match locRead s.tx.raddr s with
  | .error r => .refused r
  | .ok v => .next { drWrite v s with tx := s.tx.stepped }

/-- The receive channel step `RXCH` (rule R123). -/
def rxAct (s : State) : Host.Outcome State Fault Refusal :=
  match locWrite s.rx.waddr s.rxd (drRead s) with
  | .error r => .refused r
  | .ok t => .next { t with rx := t.rx.stepped }

/-- HOST may take its next action: only while no command is in progress, for it is blocked else (rules R21, R41, R60). -/
def hostReady (s : State) : Bool :=
  match s.inputs with
  | [] => false
  | .command _ :: _ => !s.cmdBusy
  | .stepwise _ :: _ => !s.cmdBusy
  | .store _ _ :: _ => !s.cmdBusy
  | .wait :: _ => false
  | .blockReset :: _ => false

/-- HOST's step: it offers a word, which is accepted, or it stores a byte (rules R10, R41 and R60). -/
def hostAct (s : State) : Host.Outcome State Fault Refusal :=
  match s.inputs with
  | .command w :: rest => accept w { s with inputs := rest }
  | .stepwise w :: rest => accept w { s with inputs := rest }
  | .store a v :: rest => .next (hostStore a v { s with inputs := rest })
  | .wait :: _ => .next s
  | .blockReset :: _ => .next s
  | [] => .next s

/-- An agent's step is enabled (rules R10, R102, R122 to R124). -/
def enabled (ag : Agent) (s : State) : Bool :=
  match ag with
  | .host => hostReady s
  | .eng =>
    match s.cur with
    | none => false
    | some i => engReady i s.ph s
  | .shift => shiftReady s
  | .txch => s.tx.busy && requested (pace .tx) s
  | .rxch => s.rx.busy && requested (pace .rx) s

/-- An agent's step, where it is enabled. -/
def act (ag : Agent) (s : State) : Host.Outcome State Fault Refusal :=
  match ag with
  | .host => hostAct s
  | .eng =>
    match s.cur with
    | none => .fault .stuck
    | some i => .next (engAct i s.ph s)
  | .shift => .next (shiftAct s)
  | .txch => txAct s
  | .rxch => rxAct s

/-- ENG is measuring one of the two holds of `CRST` (rules R140 and R161). -/
def holding (s : State) : Bool := s.cur == some .crst && (s.ph == 1 || s.ph == 2)

/-- `d` periods of `clk_sys` pass: only the hold timer shows it, and it runs only during `CRST` (rule R161). -/
def passTime (d : Nat) (s : State) : State :=
  if holding s then { s with timer := s.timer + d } else s

/-- One entry of a schedule: an agent's turn, time that passes, or a block reset (rules R125, R141 and R170). -/
inductive Move where
  | agent (ag : Agent)
  | pass (d : Nat)
  | blockReset
  deriving DecidableEq, Repr

/-- One entry of a schedule run: none where the agent has no step or its step has no meaning. -/
def runMove (m : Move) (s : State) : Option State :=
  match m with
  | .pass d => some (passTime d s)
  | .blockReset => some (blockReset s)
  | .agent ag =>
    if enabled ag s then
      match act ag s with
      | .next t => some t
      | .fault _ => none
      | .refused _ => none
    else none

/-- A schedule run to its end: none where one of its entries could not be run. -/
def runMoves : List Move → State → Option State
  | [], s => some s
  | m :: ms, s => (runMove m s).bind (runMoves ms)

/-- A schedule of agents' turns (rule R125). -/
def runAgents (l : List Agent) (s : State) : Option State := runMoves (l.map Move.agent) s

/-- The agent the arbiter prefers: the next of `arb`, or a free value (rule R125; log entry 10). -/
def preferred (s : State) : Agent :=
  match s.arb with
  | ag :: _ => ag
  | [] => Config.arbPick s.draws

/-- The arbiter has made one choice. -/
def choiceTaken (s : State) : State := { s with arb := s.arb.tail, draws := s.draws + 1 }

/-- The agent that steps next: the preferred one if it is enabled, else another that is (rule R125). -/
def nextAgent (s : State) : Option Agent :=
  [preferred s, .eng, .shift, .txch, .rxch].find? (enabled · s)

/-- How long the running hold still lasts: what is missing to its lower bound, and a free value (rule R141). -/
def holdLeft (s : State) : Nat :=
  (if s.ph = 1 then Config.tRstLowMin - s.timer else Config.tRstHighMin - s.timer) + Config.holdExtra s.draws

/-- One small step of the block while a command is in progress: an enabled agent's step, or the running hold passes. -/
def engineStep (s : State) : Host.Outcome State Fault Refusal :=
  match nextAgent s with
  | some ag => act ag (choiceTaken s)
  | none => if holding s then .next (passTime (holdLeft s) (choiceTaken s)) else .fault .stuck

end Sys2Proof.Machine
end

