-- ==== Sys2Proof/Machine/Port.lean ====
section
/-!
DEFINITION. The command port and what the outside does next (spec/10_state.md rules R21, R41, R44; spec/60_exceptions.md
rule R163): what a step of the machine finds. The block fetches nothing from memory (rule R65); a command comes from the
port as one 64-bit word (log entry 2).
-/

namespace Sys2Proof.Machine

/-- What a step finds; the state in each is the one without the input that is used up. -/
inductive Found where
  /-- `rst_n` is asserted. -/
  | reset (s : State)
  /-- A command is in progress. -/
  | running (s : State)
  /-- Nothing is asked of an idle block. -/
  | idle (s : State)
  /-- The host stores a byte. -/
  | store (a : Addr) (v : Byte) (s : State)
  /-- The port takes a word to be run as one step. -/
  | command (d : Decoded) (s : State)
  /-- The port takes a word to be run agent by agent. -/
  | stepwise (d : Decoded) (s : State)
  deriving DecidableEq, Repr

/-- What a step finds: a block reset strikes at any time (rule R170); while a command runs the host is blocked and its
word waits at the port (rules R41 and R163; U9); an idle block takes the host's next action. -/
def lookUp (s : State) : Found :=
  match s.inputs with
  | .blockReset :: rest => .reset { s with inputs := rest }
  | .wait :: rest => if s.cmdBusy then .running { s with inputs := rest } else .idle { s with inputs := rest }
  | .command w :: rest =>
    if s.cmdBusy then .running s else .command (decode s.params.burstPath w) { s with inputs := rest }
  | .stepwise w :: rest =>
    if s.cmdBusy then .running s else .stepwise (decode s.params.burstPath w) { s with inputs := rest }
  | .store a v :: rest => if s.cmdBusy then .running s else .store a v { s with inputs := rest }
  | [] => if s.cmdBusy then .running s else .idle s

/-- The word the host offers next, in front of what it would have done. -/
def offerWord (w : Word) (s : State) : State := { s with inputs := .command w :: s.inputs }

end Sys2Proof.Machine
end

