-- ==== Sys2Proof/Machine/Step.lean ====
section
/-!
DEFINITION. One step of the machine. From an idle command port it is one whole command, the big step of spec/00_scope.md
rule R9 (or a host store, a block reset, or an idle step: rules R60, R165, R170). With a command in progress it is one
small step of one agent (rules R9, R10 and R125).
-/

namespace Sys2Proof.Machine

/-- One step of the machine (log entry 1). -/
def step (s : State) : Host.Outcome State Fault Refusal :=
  match lookUp s with
  | .reset t => .next (blockReset t)
  | .running t => engineStep t
  | .idle t => .next t
  | .store a v t => .next (hostStore a v t)
  | .command (.command i) t => exec i t
  | .command (.reserved r) _ => .refused (reservedRefusal r)
  | .stepwise d t => acceptDecoded d t

/-- `s` with the word offered at the command port as the host's next action, so that the next step takes it when no
command is in progress, as after reset (log entry 2). Bits above `nbits` are 0. A placed number of more than 64 bits is cut
to its low 64, which is the model's choice: the port takes one 64-bit word (log entry 24). -/
def State.withFetchWord (s : State) (nbits w : Nat) : State :=
  offerWord (BitVec.ofNat 64 (w % 2 ^ nbits)) s

end Sys2Proof.Machine
end

