-- ==== Sys2Proof/Safety.lean ====
section
/-!
DEFINITION. What counts as a good state of the block and a lawful use of it, in the terms the statements use: the host's
contract read off the rules (spec/40_chip_select.md rule R92), the chip-select discipline of the bus history (rule R93),
and the invariant of the machine, for states between commands (spec/10_state.md rules R33 and R42) and for states inside
one (spec/42_burst_transfer.md rule R128).
-/

namespace Sys2Proof.Machine

/-- A burst of length `n` at `a` lies in `Alloc` and does not wrap (rule R52). -/
def BufferAllocated (p : Params) (a : Addr) (n : Len) : Prop :=
  a.toNat + n.toNat ≤ 2 ^ 32 ∧ ∀ k < n.toNat, inAlloc p (a.toNat + k) = true

/-- The preconditions of a command, as its rule lists them (rules R90, R91, R100, R101, R110, R111, R140). -/
def Lawful (i : Instr) (s : State) : Prop :=
  match i with
  | .sel => s.cs = .high ∧ s.rstd = true
  | .desel => s.cs = .low
  | .rdb => s.cs = .low
  | .wrb _ => s.cs = .low
  | .rdburst a n => s.params.burstPath = true ∧ n ≠ 0 ∧ BufferAllocated s.params a n ∧ s.cs = .low
  | .wrburst a n => s.params.burstPath = true ∧ n ≠ 0 ∧ BufferAllocated s.params a n ∧ s.cs = .low
  | .crst => s.cs = .high

/-- The bytes of memory at `a, a+1, ..., a+n-1`. -/
def memBytes (m : Memory) (a n : Nat) : List Byte := (List.range n).map fun k => m.read (a + k)

/-- The exchange events of the outbound bytes `os` answered by the inbound bytes `is`, with CSn low. -/
def exchanges (os is : List Byte) : List BusEvent := List.zipWith (fun o i => .xchg o i .low) os is

/-- One command after another, each to its completion; none where one has no next state. -/
def execAll : List Instr → State → Option State
  | [], s => some s
  | i :: is, s =>
    match exec i s with
    | .next t => execAll is t
    | .fault _ => none
    | .refused _ => none

/-- What the response port gives the host while it issues one command after another: the completions in order, up to the
first command that has no next state (rules R44 and R72). -/
def completions : List Instr → State → List Completion
  | [], _ => []
  | i :: is, s =>
    match exec i s with
    | .next t => t.resp.toList ++ completions is t
    | .fault _ => []
    | .refused _ => []

/-- The pins of the attached chip as the bus history shows them. -/
structure Pins where
  cs : Level
  rst : Level
  /-- RSTn has gone low and then high. -/
  resetSeen : Bool
  deriving DecidableEq, Repr

/-- The pins after one more event; none where the event breaks the discipline of rules R92, R93 and R174. -/
def Pins.after (p : Pins) : BusEvent → Option Pins
  | .csFall => if p.cs = .high ∧ p.rst = .high ∧ p.resetSeen = true then some { p with cs := .low } else none
  | .csRise => if p.cs = .low then some { p with cs := .high } else none
  | .rstFall => if p.cs = .high ∧ p.rst = .high then some { p with rst := .low } else none
  | .rstRise =>
    if p.cs = .high ∧ p.rst = .low then some { p with rst := .high, resetSeen := true } else none
  | .xchg _ _ l => if p.cs = .low ∧ l = .low then some p else none

/-- The pins after a history; none where it breaks the discipline. -/
def Pins.afterAll : Pins → List BusEvent → Option Pins
  | p, [] => some p
  | p, e :: es => (p.after e).bind (Pins.afterAll · es)

/-- The pins after block reset (rule R43). -/
def Pins.reset : Pins := ⟨.high, .high, false⟩

/-- The history keeps the discipline and ends with the pins at their levels; once `RSTD` is set, and when the last phase
of a chip reset runs, RSTn has gone low and then high (rules R25 and R93). -/
def HistoryOk (s : State) : Prop :=
  ∃ seen : Bool, Pins.reset.afterAll s.trace = some ⟨s.cs, s.rstl, seen⟩ ∧
    (s.rstd = true → seen = true) ∧ (s.cur = some .crst → s.ph = 2 → seen = true)

/-- The chip has been selected only after the reset sequence has run (rules R25 and R174). -/
def SelectedAfterReset (s : State) : Prop := BusEvent.csFall ∈ s.trace → s.rstd = true

/-- Both holds of a reset sequence have lasted at least their lower bounds (rule R141). -/
def HoldsKept (s : State) : Prop :=
  (s.rstd = true → Config.tRstLowMin ≤ s.holdLow ∧ Config.tRstHighMin ≤ s.holdHigh) ∧
    (s.cur = some .crst → s.ph = 2 → Config.tRstLowMin ≤ s.holdLow)

/-- `c.BUSY = true` if and only if `c.COUNT > 0` (rule R33). -/
def BusyIffCount (c : Channel) : Prop := c.busy = true ↔ 0 < c.count.toNat

/-- Between commands: nothing in flight, no command held, the reset line high (rules R24, R41 and R42). -/
def IdleOk (s : State) : Prop :=
  s.cmdBusy = false → quiet s ∧ s.cur = none ∧ s.ph = 0 ∧ s.rstl = .high

/-- Bytes handed to the data register and not yet taken by the receive side: one in `TXD`, one in `RXD` (rule R128). -/
def inFlight (s : State) : Nat := s.txf.toNat + s.rxf.toNat

/-- Inside a read burst: what the channel registers hold after `r` bytes have been received (rules R116, R117, R122, R123). -/
def ReadChannels (a : Addr) (n : Len) (s : State) : Prop :=
  s.tx.incrR = false ∧ s.tx.incrW = false ∧ s.tx.raddr = .fillSrc ∧ s.tx.waddr = .dataReg ∧
  s.rx.incrR = false ∧ s.rx.incrW = true ∧ s.rx.raddr = .dataReg ∧
  s.rx.waddr = .mem (a + BitVec.ofNat 32 (n.toNat - s.rx.count.toNat))

/-- Inside a write burst: what the channel registers hold after `t` bytes have been sent (rules R119, R120, R122, R123). -/
def WriteChannels (a : Addr) (n : Len) (s : State) : Prop :=
  s.tx.incrR = true ∧ s.tx.incrW = false ∧
  s.tx.raddr = .mem (a + BitVec.ofNat 32 (n.toNat - s.tx.count.toNat)) ∧ s.tx.waddr = .dataReg ∧
  s.rx.incrR = false ∧ s.rx.incrW = false ∧ s.rx.raddr = .dataReg ∧ s.rx.waddr = .scratchSink

/-- Inside a burst of length `n`: before the start nothing is in flight; after it the receive side is behind the
transmit side by exactly the bytes in flight (rule R128). -/
def BurstOk (n : Len) (channels : Prop) (s : State) : Prop :=
  (s.ph = 0 ∧ quiet s) ∨
  (s.ph = 1 ∧ channels ∧ s.rx.count.toNat ≤ n.toNat ∧ s.rx.count.toNat = s.tx.count.toNat + inFlight s)

/-- Inside a byte command: before its write of the data register nothing is in flight, after it exactly one byte is
(rules R100 and R101). -/
def ByteOk (s : State) : Prop :=
  s.tx.count = 0 ∧ s.rx.count = 0 ∧ ((s.ph = 0 ∧ inFlight s = 0) ∨ (s.ph = 1 ∧ inFlight s = 1))

/-- Inside a command: its contract still holds, and the block is as far as its phase says. -/
def RunningOk (i : Instr) (s : State) : Prop :=
  match i with
  | .sel => Lawful .sel s ∧ s.rstl = .high ∧ s.ph = 0 ∧ quiet s
  | .desel => Lawful .desel s ∧ s.rstl = .high ∧ s.ph = 0 ∧ quiet s
  | .rdb => Lawful .rdb s ∧ s.rstl = .high ∧ ByteOk s
  | .wrb d => Lawful (.wrb d) s ∧ s.rstl = .high ∧ ByteOk s
  | .rdburst a n => Lawful (.rdburst a n) s ∧ s.rstl = .high ∧ BurstOk n (ReadChannels a n s) s
  | .wrburst a n => Lawful (.wrburst a n) s ∧ s.rstl = .high ∧ BurstOk n (WriteChannels a n s) s
  | .crst => Lawful .crst s ∧ quiet s ∧
      ((s.ph = 0 ∧ s.rstl = .high) ∨ (s.ph = 1 ∧ s.rstl = .low) ∨ (s.ph = 2 ∧ s.rstl = .high))

/-- With a command in progress, it is held in `CUR` and the block is inside it. -/
def BusyOk (s : State) : Prop := s.cmdBusy = true → ∃ i, s.cur = some i ∧ RunningOk i s

/-- The invariant of the machine, between commands and inside them. -/
structure BlockInv (s : State) : Prop where
  memory : s.mem.wf
  history : HistoryOk s
  selected : SelectedAfterReset s
  holds : HoldsKept s
  txBusy : BusyIffCount s.tx
  rxBusy : BusyIffCount s.rx
  idle : IdleOk s
  running : BusyOk s

/-- How many small steps a command takes after its acceptance: a byte command three, a burst three a byte and two, `CRST`
three and one for each of its holds (rules R130 and R190). -/
def smallSteps : Instr → Nat
  | .sel => 1
  | .desel => 1
  | .rdb => 3
  | .wrb _ => 3
  | .rdburst _ n => 3 * n.toNat + 2
  | .wrburst _ n => 3 * n.toNat + 2
  | .crst => 3 + 2

/-- How many small steps a burst still takes after its start: three for each byte still to send, two for one in `TXD`, one
for one in `RXD`, and the completion (rule R130). -/
def burstLeft (s : State) : Nat := 3 * s.tx.count.toNat + 2 * s.txf.toNat + s.rxf.toNat + 1

/-- How many steps of the machine the running command still takes when nothing resets the block (rules R130 and R190). -/
def stepsLeft (s : State) : Nat :=
  match s.cur, s.ph with
  | none, _ => 0
  | some i, 0 => smallSteps i
  | some .sel, _ => 0
  | some .desel, _ => 0
  | some .rdb, _ => s.txf.toNat + 1
  | some (.wrb _), _ => s.txf.toNat + 1
  | some (.rdburst _ _), _ => burstLeft s
  | some (.wrburst _ _), _ => burstLeft s
  | some .crst, 1 => if Config.tRstLowMin ≤ s.timer then 3 else 4
  | some .crst, _ => if Config.tRstHighMin ≤ s.timer then 1 else 2

/-- The level of CSn that a history shows: low after a `CsFall` and before the next `CsRise` (rule R93). -/
def selectedAfter (es : List BusEvent) : Bool :=
  es.foldl (fun sel e =>
    match e with
    | .csFall => true
    | .csRise => false
    | .rstFall => sel
    | .rstRise => sel
    | .xchg _ _ _ => sel) false

end Sys2Proof.Machine
end

