-- ==== Sys2Proof/Certificates/Slice0/Obligations.lean ====
section
/-!
DEFINITION. The statements for the provers. Each docstring names the rule of spec/ it formalises. A model choice is named
where a statement rests on one.
-/

open Sys2Proof
open Sys2Proof.Machine

/-! ## Encoding (spec/30_encoding.md) -/

/-- Decoding the word of a well-formed command gives the command, every operand at every value (rules R71, R73, R75); in
a block without the burst path the words of the bursts are reserved and all others decode alike (rule R77). -/
def Obligations.DecodeOfEncodeIsIdentity : Prop :=
  ∀ i : Instr, i.wellFormed = true →
    decode true (encode i) = .command i ∧
    decode false (encode i) = if i.isBurst then .reserved .burstPathAbsent else .command i

/-- A word that decodes to a command is that command's word, and the command is well formed; so no two words decode to
one command (rules R71, R73, R75, R77). -/
def Obligations.EncodeOfDecodeIsIdentity : Prop :=
  ∀ (bp : Bool) (w : Word) (i : Instr), decode bp w = .command i →
    encode i = w ∧ i.wellFormed = true ∧ (i.isBurst = true → bp = true)

/-- Rule R73, every sentence: which words are which command, and that every other word is reserved. -/
def Obligations.DecoderFollowsItsRule : Prop :=
  ∀ (bp : Bool) (w : Word),
    let op := w.extractLsb' 56 8
    let zeros := w.extractLsb' 0 56
    let burst := bp = true ∧ w.extractLsb' 32 24 ≠ 0
    (decode bp w = .command .sel ↔ op = 0x01 ∧ zeros = 0) ∧
    (decode bp w = .command .desel ↔ op = 0x02 ∧ zeros = 0) ∧
    (decode bp w = .command .rdb ↔ op = 0x03 ∧ zeros = 0) ∧
    (decode bp w = .command .crst ↔ op = 0x07 ∧ zeros = 0) ∧
    (∀ d, decode bp w = .command (.wrb d) ↔ op = 0x04 ∧ w.extractLsb' 8 48 = 0 ∧ d = w.extractLsb' 0 8) ∧
    (∀ a n, decode bp w = .command (.rdburst a n) ↔
      op = 0x05 ∧ burst ∧ a = w.extractLsb' 0 32 ∧ n = w.extractLsb' 32 24) ∧
    (∀ a n, decode bp w = .command (.wrburst a n) ↔
      op = 0x06 ∧ burst ∧ a = w.extractLsb' 0 32 ∧ n = w.extractLsb' 32 24) ∧
    ((∀ i, decode bp w ≠ .command i) → ∃ r, decode bp w = .reserved r)

/-- Rule R74: a word is the command of a row when `w & mask = match`, for the two burst rows also `len ≠ 0`; and no word
is the command of two rows. -/
def Obligations.OpcodeMapAgreesWithDecoder : Prop :=
  (∀ (w : Word) (i : Instr), decode true w = .command i →
    ∃ r, opcodeMap[rowOf i]? = some r ∧ r.matches w = true) ∧
  (∀ (w : Word) (k : Nat) (r : OpcodeRow), opcodeMap[k]? = some r → r.matches w = true →
    ∃ i, decode true w = .command i ∧ rowOf i = k)

/-- Rules R76 and R77: an idle block that is offered a reserved word, to be run in one step or agent by agent, refuses it,
by the name of what is reserved. A burst word of length 0 in a block without the burst path is reserved for both reasons;
rule R157 leaves open which is named, and that it is the absent burst path is the model's choice (log entry 12). -/
def Obligations.ReservedWordsAreRefused : Prop :=
  ∀ (s : State) (w : Word) (rest : List Input), s.cmdBusy = false →
    (s.inputs = .command w :: rest ∨ s.inputs = .stepwise w :: rest) →
    let op := w.extractLsb' 56 8
    ((op = 0x00 ∨ 0x08 ≤ op.toNat) → step s = .refused .reservedOpcode) ∧
    ((op = 0x01 ∨ op = 0x02 ∨ op = 0x03 ∨ op = 0x07) → w.extractLsb' 0 56 ≠ 0 → step s = .refused .reservedField) ∧
    (op = 0x04 → w.extractLsb' 8 48 ≠ 0 → step s = .refused .reservedField) ∧
    ((op = 0x05 ∨ op = 0x06) → s.params.burstPath = true → w.extractLsb' 32 24 = 0 → step s = .refused .zeroLength) ∧
    ((op = 0x05 ∨ op = 0x06) → s.params.burstPath = false → step s = .refused .burstPathAbsent)

/-- The words of vectors V1 to V9j (spec/95_test_vectors.md section 3.1). -/
def Obligations.VectorWordsDecode : Prop :=
  decode true 0x0100000000000000 = .command .sel ∧
  decode true 0x0200000000000000 = .command .desel ∧
  decode true 0x0300000000000000 = .command .rdb ∧
  decode true 0x04000000000000A5 = .command (.wrb 0xA5) ∧
  decode true 0x0500020520000100 = .command (.rdburst 0x20000100 517) ∧
  decode true 0x0600000100000000 = .command (.wrburst 0x00000000 1) ∧
  decode true 0x06FFFFFFFFFFFFFF = .command (.wrburst 0xFFFFFFFF 16777215) ∧
  decode true 0x0700000000000000 = .command .crst ∧
  decode true 0x0000000000000000 = .reserved .opcode ∧
  decode true 0x0100000000000001 = .reserved .mustBeZero ∧
  decode true 0x0400000000000100 = .reserved .mustBeZero ∧
  decode true 0x0500000020000100 = .reserved .zeroLength ∧
  decode false 0x0500000120000000 = .reserved .burstPathAbsent

/-! ## Block reset (spec/10_state.md, spec/70_reset_and_hazards.md) -/

/-- Rule R43, every value the table states, and rule R172: a block reset may strike in any state, in the middle of a
command too; the step leaves every field at its reset value, emits no event, and changes neither memory nor the attached
chip. -/
def Obligations.BlockResetLeavesResetValues : Prop :=
  ∀ (s : State) (rest : List Input), s.inputs = .blockReset :: rest →
    ∃ t, step s = .next t ∧
      t.cs = .high ∧ t.rstl = .high ∧ t.rstd = false ∧ t.txf = false ∧ t.rxf = false ∧
      t.tx.busy = false ∧ t.rx.busy = false ∧ t.tx.count = 0 ∧ t.rx.count = 0 ∧
      t.tx.incrR = false ∧ t.tx.incrW = false ∧ t.rx.incrR = false ∧ t.rx.incrW = false ∧
      Config.channelClaimed = true ∧ Config.dmaWidth = 8 ∧ pace .tx = .txReq ∧ pace .rx = .rxReq ∧
      Config.fill = 0xFF ∧
      t.cmdBusy = false ∧ t.cur = none ∧ t.ph = 0 ∧ t.trace = [] ∧ t.mem = s.mem ∧ t.slave = s.slave

/-- A block reset abandons the running command without a completion (spec/70_reset_and_hazards.md section 1). That the
response port then shows none, and that the open parameters, the model's own counters and what the outside does next stay,
are the model's choices (log entries 2, 8 and 11). -/
def Obligations.BlockResetGivesNoCompletion : Prop :=
  ∀ (s : State) (rest : List Input), s.inputs = .blockReset :: rest →
    ∃ t, step s = .next t ∧ t.resp = none ∧ t.params = s.params ∧ t.inputs = rest ∧ t.arb = s.arb ∧ t.draws = s.draws

/-- Rules R171 and R174 (vector V43): in a state right after block reset the only command with a meaning is `CRST`. -/
def Obligations.OnlyChipResetRunsAfterBlockReset : Prop :=
  ∀ (s : State) (i : Instr), (∃ t, exec i (blockReset s) = .next t) ↔ i = .crst

/-! ## The command port and the step (spec/10_state.md rules R21 and R41) -/

/-- A word offered to an idle block that decodes to a command is run to its completion by the next step, which is `exec`
of the command; offered to be run agent by agent, the next step accepts it when its contract holds (rules R9, R21, R41) and
else refuses it, by the name `exec` refuses it by (rule R151). That the two semantics are told apart by the input, and that
an acceptance clears the response port, are the model's choices (log entries 1, 2 and 8). -/
def Obligations.StepRunsTheDecodedCommand : Prop :=
  ∀ (s : State) (w : Word) (i : Instr) (rest : List Input), s.cmdBusy = false →
    decode s.params.burstPath w = .command i →
    (s.inputs = .command w :: rest → step s = exec i { s with inputs := rest }) ∧
    (s.inputs = .stepwise w :: rest → contract i { s with inputs := rest } = none →
      step s = .next { s with inputs := rest, cmdBusy := true, cur := some i, ph := 0, resp := none }) ∧
    (s.inputs = .stepwise w :: rest → ∀ r, contract i { s with inputs := rest } = some r →
      step s = .refused r ∧ exec i { s with inputs := rest } = .refused r)

/-- Rules R41 and R163 (vector V40): while a command is in progress the port takes no word and the host makes no store;
they wait. -/
def Obligations.HostWaitsWhileCommandRuns : Prop :=
  ∀ (s t : State), s.cmdBusy = true →
    (∀ rest, s.inputs ≠ .wait :: rest) → (∀ rest, s.inputs ≠ .blockReset :: rest) →
    step s = .next t → t.inputs = s.inputs

/-- With a command in progress and the outside asking nothing but more commands or stores, a step that answers a next state
is the step of one enabled agent other than the host (rule R10), or, where no agent is enabled and a hold of a chip reset is
running, the passing of what is left of that hold, to its lower bound at least (rules R140 and R141); and where the arbiter
names an enabled agent, it is that agent's step (rule R125). That a running hold passes in one step of the machine, and how the open order is named in the state, are
the model's choices (log entries 1, 9 and 10). -/
def Obligations.RunningStepIsOneAgentsStep : Prop :=
  ∀ (s t : State), s.cmdBusy = true →
    (∀ rest, s.inputs ≠ .wait :: rest) → (∀ rest, s.inputs ≠ .blockReset :: rest) → step s = .next t →
    ((∃ ag, ag ≠ .host ∧ enabled ag s = true ∧ act ag (choiceTaken s) = .next t) ∨
      (holding s = true ∧ (∀ ag, ag ≠ .host → enabled ag s = false) ∧
        t = { choiceTaken s with timer := s.timer + holdLeft s } ∧
        (s.ph = 1 → Config.tRstLowMin ≤ t.timer) ∧ (s.ph ≠ 1 → Config.tRstHighMin ≤ t.timer))) ∧
    (∀ ag rest, s.arb = ag :: rest → enabled ag s = true → act ag (choiceTaken s) = .next t)

/-- Rules R50, R60 and R165: an idle block asked for nothing stays as it is; a host store made between commands changes
that byte alone, and a later load sees it. That the store is an input, and that this holds outside `Alloc` too, are the
model's choices (log entries 2 and 21). -/
def Obligations.HostStoresBetweenCommands : Prop :=
  ∀ (s : State), s.cmdBusy = false →
    (s.inputs = [] → step s = .next s) ∧
    (∀ a v rest, s.inputs = .store a v :: rest → s.mem.wf →
      ∃ t, step s = .next t ∧ t = { s with inputs := rest, mem := t.mem } ∧
        hostLoad t a = v ∧ ∀ b, b ≠ a → hostLoad t b = hostLoad s b)

/-- Rules R92 and R151: from an idle port a command has a next state exactly when its preconditions hold; else it is
refused by the name of one that is broken, and it is never a fault (rule R150). -/
def Obligations.CommandRunsExactlyWhenLawful : Prop :=
  ∀ (s : State) (i : Instr), s.cmdBusy = false →
    ((∃ t, exec i s = .next t) ↔ Lawful i s) ∧
    (∀ f, exec i s ≠ .fault f) ∧
    (∀ r, exec i s = .refused r →
      match r with
      | .transferOutsideSpan => (i = .rdb ∨ (∃ d, i = .wrb d) ∨ i.isBurst = true) ∧ s.cs = .high
      | .nestedSelect => i = .sel ∧ s.cs = .low
      | .deselectWithoutSpan => i = .desel ∧ s.cs = .high
      | .zeroLength => i.wellFormed = false
      | .bufferNotAllocated =>
        ∃ a n, (i = .rdburst a n ∨ i = .wrburst a n) ∧ ¬ BufferAllocated s.params a n
      | .deviceBuffer =>
        ∃ a n, (i = .rdburst a n ∨ i = .wrburst a n) ∧ ∃ k < n.toNat, onDevice s.params (a.toNat + k) = true
      | .burstPathAbsent => i.isBurst = true ∧ s.params.burstPath = false
      | .selectBeforeChipReset => i = .sel ∧ s.rstd = false
      | .chipResetInsideSpan => i = .crst ∧ s.cs = .low
      | .notModelled _ | .portBusy | .reservedOpcode | .reservedField | .noSuchAccess => False)

/-- While a command is in progress `exec` of another is refused as `portBusy`. The spec says only that a word offered then
waits at the port (rule R41, U9), which HostWaitsWhileCommandRuns states of `step`. This refusal, of an application of `exec`
that `step` never makes, is the model's choice (log entry 13). -/
def Obligations.NoCommandInsideAnother : Prop :=
  ∀ (s : State) (i : Instr), s.cmdBusy = true → exec i s = .refused .portBusy

/-! ## The commands, each from start to completion -/

/-- Rule R90: `SEL`, the word 0x0100_0000_0000_0000, from CSn high after the reset sequence lowers CSn, emits `CsFall`,
completes, and changes nothing else; with CSn low, or before the reset sequence, it has no meaning; its one small step does
the same. -/
def Obligations.SelectLowersChipSelect : Prop :=
  encode .sel = 0x0100000000000000 ∧
  ∀ s : State, s.cmdBusy = false →
    let t := { s with
      cs := .low, trace := s.trace ++ [.csFall], slave := s.slave.csFall
      cmdBusy := false, cur := none, ph := 0, resp := some .bare }
    (s.cs = .high → s.rstd = true →
      exec .sel s = .next t ∧ runAgents [.eng] (accepted .sel s) = some t) ∧
    (s.cs = .low → exec .sel s = .refused .nestedSelect) ∧
    (s.cs = .high → s.rstd = false → exec .sel s = .refused .selectBeforeChipReset)

/-- Rule R91: `DESEL`, the word 0x0200_0000_0000_0000, from CSn low raises CSn, emits `CsRise`, completes, and changes
nothing else; with CSn high it has no meaning; its one small step does the same. -/
def Obligations.DeselectRaisesChipSelect : Prop :=
  encode .desel = 0x0200000000000000 ∧
  ∀ s : State, s.cmdBusy = false →
    let t := { s with
      cs := .high, trace := s.trace ++ [.csRise], slave := s.slave.csRise
      cmdBusy := false, cur := none, ph := 0, resp := some .bare }
    (s.cs = .low → exec .desel s = .next t ∧ runAgents [.eng] (accepted .desel s) = some t) ∧
    (s.cs = .high → exec .desel s = .refused .deselectWithoutSpan)

/-- Rule R100, big step: `RDB` exchanges 0xFF, appends the exchange, leaves the bytes in the data register with its flags
false, and returns the inbound byte; nothing else changes. With CSn high it has no meaning. -/
def Obligations.ReadByteReturnsInboundByte : Prop :=
  ∀ s : State, s.cmdBusy = false →
    (s.cs = .low →
      exec .rdb s = .next { s with
        slave := (s.slave.exchange 0xFF).2
        trace := s.trace ++ [.xchg 0xFF (s.slave.exchange 0xFF).1 .low]
        txd := 0xFF, rxd := (s.slave.exchange 0xFF).1, txf := false, rxf := false
        cmdBusy := false, cur := none, ph := 0, resp := some (.byte (s.slave.exchange 0xFF).1) }) ∧
    (s.cs = .high → exec .rdb s = .refused .transferOutsideSpan)

/-- Rule R101, big step: `WRB data` exchanges `data`, appends the exchange, leaves the bytes in the data register with its
flags false, and completes with no data; nothing else changes. With CSn high it has no meaning. -/
def Obligations.WriteByteSendsItsOperand : Prop :=
  ∀ (s : State) (d : Byte), s.cmdBusy = false →
    (s.cs = .low →
      exec (.wrb d) s = .next { s with
        slave := (s.slave.exchange d).2
        trace := s.trace ++ [.xchg d (s.slave.exchange d).1 .low]
        txd := d, rxd := (s.slave.exchange d).1, txf := false, rxf := false
        cmdBusy := false, cur := none, ph := 0, resp := some .bare }) ∧
    (s.cs = .high → exec (.wrb d) s = .refused .transferOutsideSpan)

/-- Rule R110, big step: a lawful `RDBURST a, n` asks the slave `n` times with 0xFF, appends the `n` exchanges, and stores
the k-th answer at `a + k`; every other byte of memory reads as before; the channel registers, the data register and the
flags are left as the rule says; nothing else changes. -/
def Obligations.ReadBurstStoresTheAnswers : Prop :=
  ∀ (s : State) (a : Addr) (n : Len), s.cmdBusy = false → Lawful (.rdburst a n) s → s.mem.wf →
    let r := s.slave.answers (List.replicate n.toNat 0xFF)
    ∃ t : State, exec (.rdburst a n) s = .next t ∧
      r.1.length = n.toNat ∧
      t.trace = s.trace ++ exchanges (List.replicate n.toNat 0xFF) r.1 ∧ t.slave = r.2 ∧
      (∀ k < n.toNat, r.1[k]? = some (t.mem.read (a.toNat + k))) ∧
      (∀ x : Nat, x < a.toNat ∨ a.toNat + n.toNat ≤ x → t.mem.read x = s.mem.read x) ∧
      t.tx = { incrR := false, incrW := false, raddr := .fillSrc, waddr := .dataReg, count := 0, busy := false } ∧
      t.rx = { incrR := false, incrW := true, raddr := .dataReg
               waddr := .mem (BitVec.ofNat 32 (a.toNat + n.toNat)), count := 0, busy := false } ∧
      t.txd = 0xFF ∧ r.1.getLast? = some t.rxd ∧ t.txf = false ∧ t.rxf = false ∧
      t.cmdBusy = false ∧ t.cur = none ∧ t.ph = 0 ∧ t.resp = some .bare ∧
      t.cs = s.cs ∧ t.rstl = s.rstl ∧ t.rstd = s.rstd ∧ t.scratch = s.scratch ∧
      t.timer = s.timer ∧ t.holdLow = s.holdLow ∧ t.holdHigh = s.holdHigh ∧
      t.params = s.params ∧ t.inputs = s.inputs ∧ t.arb = s.arb ∧ t.draws = s.draws

/-- Rule R111, big step: a lawful `WRBURST a, n` sends `Mem[a], ..., Mem[a+n-1]` in that order, appends the `n` exchanges,
leaves the last answer in `SCRATCH` and memory as it was; the channel registers, the data register and the flags are left
as the rule says; nothing else changes. -/
def Obligations.WriteBurstSendsTheBuffer : Prop :=
  ∀ (s : State) (a : Addr) (n : Len), s.cmdBusy = false → Lawful (.wrburst a n) s →
    let out := memBytes s.mem a.toNat n.toNat
    let r := s.slave.answers out
    ∃ t : State, exec (.wrburst a n) s = .next t ∧
      r.1.length = n.toNat ∧
      t.trace = s.trace ++ exchanges out r.1 ∧ t.slave = r.2 ∧ t.mem = s.mem ∧
      t.tx = { incrR := true, incrW := false, raddr := .mem (BitVec.ofNat 32 (a.toNat + n.toNat))
               waddr := .dataReg, count := 0, busy := false } ∧
      t.rx = { incrR := false, incrW := false, raddr := .dataReg, waddr := .scratchSink, count := 0, busy := false } ∧
      out.getLast? = some t.txd ∧ r.1.getLast? = some t.rxd ∧ t.scratch = t.rxd ∧ t.txf = false ∧ t.rxf = false ∧
      t.cmdBusy = false ∧ t.cur = none ∧ t.ph = 0 ∧ t.resp = some .bare ∧
      t.cs = s.cs ∧ t.rstl = s.rstl ∧ t.rstd = s.rstd ∧
      t.timer = s.timer ∧ t.holdLow = s.holdLow ∧ t.holdHigh = s.holdHigh ∧
      t.params = s.params ∧ t.inputs = s.inputs ∧ t.arb = s.arb ∧ t.draws = s.draws

/-- Rules R140, R142 and R143, big step: `CRST` from CSn high, whether or not it has run before, lowers and raises RSTn,
emits `RstFall` and `RstRise`, sets `RSTD` and completes, and changes nothing else of the block; the slave is handed the
two events and asked nothing. With CSn low it has no meaning. The recorded hold lengths and the counter they are drawn
with are the model's own (log entry 9); the lengths are at least the lower bounds of rule R141. -/
def Obligations.ChipResetPulsesTheResetLine : Prop :=
  ∀ s : State, s.cmdBusy = false →
    (s.cs = .high → ∃ low high : Nat,
      Config.tRstLowMin ≤ low ∧ Config.tRstHighMin ≤ high ∧
      exec .crst s = .next { s with
        rstl := .high, rstd := true, trace := s.trace ++ [.rstFall, .rstRise]
        slave := s.slave.rstFall.rstRise
        cmdBusy := false, cur := none, ph := 0, resp := some .bare
        timer := 0, holdLow := low, holdHigh := high, draws := s.draws + 2 }) ∧
    (s.cs = .low → exec .crst s = .refused .chipResetInsideSpan)

/-! ## The small steps (spec/41_byte_transfer.md, spec/42_burst_transfer.md) -/

/-- Rule R102: SHIFT is enabled exactly when `TXF` and not `RXF`, whatever CSn is; its step asks the slave once with `TXD`,
moves the answer to `RXD`, moves the full flag across and appends the exchange; nothing else changes. No other agent's
step moves a byte over the bus or asks the slave: it leaves the slave alone or hands it one line event. -/
def Obligations.ShifterExchangesOneByte : Prop :=
  ∀ s : State,
    (enabled .shift s = true ↔ s.txf = true ∧ s.rxf = false) ∧
    act .shift s = .next { s with
      slave := (s.slave.exchange s.txd).2, txf := false, rxd := (s.slave.exchange s.txd).1, rxf := true
      trace := s.trace ++ [.xchg s.txd (s.slave.exchange s.txd).1 s.cs] } ∧
    ∀ (ag : Agent) (t : State), ag ≠ .shift → act ag s = .next t →
      (t.trace = s.trace ∧ t.slave = s.slave) ∨
      ∃ e : BusEvent, (∀ o i l, e ≠ .xchg o i l) ∧ t.trace = s.trace ++ [e] ∧ t.slave = s.slave.notice e

/-- Rule R122: TXCH is enabled exactly when `TX.BUSY` and not `TXF`; its step moves one byte from its source, the filler or
an allocated byte of memory, to the data register, steps the addresses whose flags are set and the count, and clears
`BUSY` when the count reaches 0. Where the flag of a fixed location is set, or a busy channel has a count of 0, which no run
reaches, the step of that location and of that count are the model's choices (log entries 25 and 27). -/
def Obligations.TransmitChannelMovesOneByte : Prop :=
  ∀ s : State,
    (enabled .txch s = true ↔ s.tx.busy = true ∧ s.txf = false) ∧
    (let tx' := { s.tx with
        raddr := if s.tx.incrR then s.tx.raddr.next else s.tx.raddr
        waddr := if s.tx.incrW then s.tx.waddr.next else s.tx.waddr
        count := s.tx.count - 1
        busy := if s.tx.count - 1 = 0 then false else s.tx.busy }
     (s.tx.raddr = .fillSrc → act .txch s = .next { s with txd := 0xFF, txf := true, tx := tx' }) ∧
     (∀ a, s.tx.raddr = .mem a → inAlloc s.params a.toNat = true →
        act .txch s = .next { s with txd := s.mem.read a.toNat, txf := true, tx := tx' }))

/-- Rule R123: RXCH is enabled exactly when `RX.BUSY` and `RXF`; its step takes the received byte to its destination, an
allocated byte of memory or the scratch byte, steps the addresses whose flags are set and the count, and clears `BUSY`
when the count reaches 0. Where the flag of a fixed location is set, or a busy channel has a count of 0, which no run
reaches, the step of that location and of that count are the model's choices (log entries 25 and 27). -/
def Obligations.ReceiveChannelMovesOneByte : Prop :=
  ∀ s : State,
    (enabled .rxch s = true ↔ s.rx.busy = true ∧ s.rxf = true) ∧
    (let rx' := { s.rx with
        raddr := if s.rx.incrR then s.rx.raddr.next else s.rx.raddr
        waddr := if s.rx.incrW then s.rx.waddr.next else s.rx.waddr
        count := s.rx.count - 1
        busy := if s.rx.count - 1 = 0 then false else s.rx.busy }
     (s.rx.waddr = .scratchSink → act .rxch s = .next { s with rxf := false, scratch := s.rxd, rx := rx' }) ∧
     (∀ a, s.rx.waddr = .mem a → inAlloc s.params a.toNat = true →
        act .rxch s = .next { s with rxf := false, mem := s.mem.write a.toNat s.rxd, rx := rx' }))

/-- Rules R114 to R117, R119 and R120: the set-up step of a burst, from whatever an earlier burst left in the channels,
clears all four increment flags, loads both channels for its direction and starts both in the one step. -/
def Obligations.BurstSetUpLoadsAndStartsBothChannels : Prop :=
  ∀ (s : State) (a : Addr) (n : Len), s.ph = 0 →
    (s.cur = some (.rdburst a n) →
      enabled .eng s = true ∧
      act .eng s = .next { s with
        tx := { incrR := false, incrW := false, raddr := .fillSrc, waddr := .dataReg, count := n, busy := true }
        rx := { incrR := false, incrW := true, raddr := .dataReg, waddr := .mem a, count := n, busy := true }
        ph := 1 }) ∧
    (s.cur = some (.wrburst a n) →
      enabled .eng s = true ∧
      act .eng s = .next { s with
        tx := { incrR := true, incrW := false, raddr := .mem a, waddr := .dataReg, count := n, busy := true }
        rx := { incrR := false, incrW := false, raddr := .dataReg, waddr := .scratchSink, count := n, busy := true }
        ph := 1 })

/-- Rule R124: once started, a burst completes exactly when the receive channel is no longer busy, whatever the transmit
channel's `BUSY` is. -/
def Obligations.BurstCompletesOnReceiveChannel : Prop :=
  ∀ (s : State) (i : Instr), i.isBurst = true → s.cur = some i → s.ph = 1 →
    (enabled .eng s = true ↔ s.rx.busy = false) ∧
    act .eng s = .next { s with cmdBusy := false, cur := none, ph := 0, resp := some .bare }

/-! ## Small steps and big steps agree -/

/-- Rule R103: from an idle block with CSn low, `RDB` and `WRB` have exactly one small-step run, ENG, SHIFT, ENG, and it
ends in the big-step state with nothing in flight. -/
def Obligations.ByteCommandHasOneRun : Prop :=
  ∀ (s : State) (i : Instr), (i = .rdb ∨ ∃ d, i = .wrb d) → s.cmdBusy = false → quiet s → s.cs = .low →
    ∃ t, exec i s = .next t ∧ quiet t ∧
      ∀ l : List Agent, .host ∉ l →
        ((∃ u, runAgents l (accepted i s) = some u ∧ u.cmdBusy = false) ↔ l = [.eng, .shift, .eng]) ∧
        (l = [.eng, .shift, .eng] → runAgents l (accepted i s) = some t)

/-- Rule R131: every small-step run of a burst, under every order of the agents' turns, from a state that meets its
preconditions, ends after `3n + 2` steps in the big-step state, with nothing in flight. -/
def Obligations.EveryScheduleOfABurstEndsInItsBigStep : Prop :=
  ∀ (s : State) (i : Instr) (a : Addr) (n : Len), (i = .rdburst a n ∨ i = .wrburst a n) →
    s.cmdBusy = false → quiet s → Lawful i s →
    ∃ t, exec i s = .next t ∧ quiet t ∧
      ∀ (l : List Agent) (u : State), .host ∉ l → runAgents l (accepted i s) = some u → u.cmdBusy = false →
        u = t ∧ l.length = 3 * n.toNat + 2

/-- Rule R128: in any state reached inside a burst of length `n`, after `t`, `x` and `r` steps of TXCH, SHIFT and RXCH:
`r ≤ x ≤ t ≤ n`, what is in flight is what the flags say, and the counts are what is left. -/
def Obligations.BurstProgressCounts : Prop :=
  ∀ (s : State) (i : Instr) (a : Addr) (n : Len), (i = .rdburst a n ∨ i = .wrburst a n) →
    s.cmdBusy = false → quiet s → Lawful i s →
    ∀ (l : List Agent) (u : State), .host ∉ l → runAgents (.eng :: l) (accepted i s) = some u → u.cmdBusy = true →
      let t := l.count .txch
      let x := l.count .shift
      let r := l.count .rxch
      r ≤ x ∧ x ≤ t ∧ t ≤ n.toNat ∧
      t - x = u.txf.toNat ∧ x - r = u.rxf.toNat ∧
      u.tx.count.toNat = n.toNat - t ∧ u.rx.count.toNat = n.toNat - r

/-- Rule R129: in a burst the transmit channel is done only when all `n` bytes have been handed to the data register, with
one or two of them not yet taken when its last step has just been taken; the receive channel is done only when every byte
has been exchanged and taken. -/
def Obligations.TransmitChannelFinishesFirst : Prop :=
  ∀ (s : State) (i : Instr) (a : Addr) (n : Len), (i = .rdburst a n ∨ i = .wrburst a n) →
    s.cmdBusy = false → quiet s → Lawful i s →
    ∀ (l : List Agent) (u : State), .host ∉ l → runAgents (.eng :: l) (accepted i s) = some u → u.cmdBusy = true →
      (u.tx.busy = false ↔ l.count .txch = n.toNat) ∧
      (u.tx.busy = false → l.getLast? = some .txch →
        l.count .rxch + 1 ≤ n.toNat ∧ n.toNat ≤ l.count .rxch + 2 ∧ u.rx.busy = true) ∧
      (u.rx.busy = false → l.count .rxch = n.toNat ∧ l.count .shift = n.toNat ∧ u.txf = false ∧ u.rxf = false)

/-- Rule R130: no run of a burst is stuck: wherever its agents have brought it, some agent has an enabled step with a next
state; so every run can be continued to its completion, which is `3n + 2` steps from the acceptance. -/
def Obligations.BurstIsNeverStuck : Prop :=
  ∀ (s : State) (i : Instr) (a : Addr) (n : Len), (i = .rdburst a n ∨ i = .wrburst a n) →
    s.cmdBusy = false → quiet s → Lawful i s →
    ∀ (l : List Agent) (u : State), .host ∉ l → runAgents l (accepted i s) = some u →
      l.length ≤ 3 * n.toNat + 2 ∧
      (u.cmdBusy = true →
        (∃ ag v, ag ≠ .host ∧ enabled ag u = true ∧ act ag u = .next v) ∧
        ∃ (m : List Agent) (t : State), .host ∉ m ∧ runAgents m u = some t ∧ t.cmdBusy = false ∧
          l.length + m.length = 3 * n.toNat + 2)

/-- Rules R140 and R141: every run of `CRST`, with any lengths of time passing between its steps, keeps both holds at
least as long as their lower bounds and else ends in the same state; and every pair of lengths above the bounds is some
run's. -/
def Obligations.ChipResetKeepsBothHolds : Prop :=
  ∀ s : State, s.cmdBusy = false → s.cs = .high → quiet s →
    (∀ (l : List Move) (u : State), .agent .host ∉ l → .blockReset ∉ l →
      runMoves l (accepted .crst s) = some u → u.cmdBusy = false →
      ∃ low high, Config.tRstLowMin ≤ low ∧ Config.tRstHighMin ≤ high ∧ u = crstWith low high s) ∧
    (∀ low high, Config.tRstLowMin ≤ low → Config.tRstHighMin ≤ high →
      runMoves [.agent .eng, .pass low, .agent .eng, .pass high, .agent .eng] (accepted .crst s) =
        some (crstWith low high s)) ∧
    (∃ low high, Config.tRstLowMin ≤ low ∧ Config.tRstHighMin ≤ high ∧
      exec .crst s = .next { crstWith low high s with draws := s.draws + 2 })

/-! ## The invariant and the whole machine -/

/-- The invariant holds after reset (rule R43; the reset values the model chose do not enter it). -/
def Obligations.ResetStateMeetsTheInvariant : Prop := BlockInv State.reset

/-- Every step keeps the invariant: memory stays canonical, the bus history keeps the chip-select discipline (rules R92 and
R93), `BUSY` is `COUNT > 0` (rule R33), the block is quiet between commands (rule R42), and inside a burst the channels are
where rule R128 says. -/
def Obligations.EveryStepKeepsTheInvariant : Prop :=
  ∀ s t : State, BlockInv s → step s = .next t → BlockInv t

/-- Rules R130 and R190: from a state that meets the invariant no step is stuck, and while a command runs no step is
refused either. -/
def Obligations.TheBlockIsNeverStuck : Prop :=
  ∀ s : State, BlockInv s →
    (∀ f, step s ≠ .fault f) ∧ (s.cmdBusy = true → ∃ t, step s = .next t)

/-- Rule R190: from a state inside a command that meets the invariant, with no block reset to come, the command ends after
exactly `stepsLeft` steps and not before. For `CRST` that counts the three small steps of rule R190 and one for the passing
of each of its two holds, which is the model's choice (log entry 9). -/
def Obligations.EveryCommandEnds : Prop :=
  ∀ s : State, BlockInv s → s.cmdBusy = true → .blockReset ∉ s.inputs →
    (∀ k < stepsLeft s, ∃ t, core.run k s = .next t ∧ t.cmdBusy = true) ∧
    (∃ t, core.run (stepsLeft s) s = .next t ∧ t.cmdBusy = false)

/-- Rules R9, R103, R131 and R190, through the machine's own step: a lawful command offered to an idle block that meets the
invariant, run agent by agent in whatever order the arbiter takes, is accepted in one step, runs for exactly its number of
small steps (1 for `SEL` and `DESEL`, 3 for a byte, `3n + 2` for a burst, 3 and its two holds for `CRST`), and then stands in
the state that `exec` gives in one step, but for the model's own counters, what the outside still does, and the recorded
lengths of the holds (log entries 1, 9 and 10). Both runs get the same answers, for the slave is a function (rule R39; log
entry 3). -/
def Obligations.StepwiseRunEndsInTheBigStep : Prop :=
  ∀ (s : State) (w : Word) (i : Instr) (rest : List Input), BlockInv s → s.cmdBusy = false →
    s.inputs = .stepwise w :: rest → .blockReset ∉ rest → decode s.params.burstPath w = .command i → Lawful i s →
    (∀ k, 1 ≤ k → k ≤ smallSteps i → ∃ t, core.run k s = .next t ∧ t.cmdBusy = true) ∧
    ∃ t u, core.run (1 + smallSteps i) s = .next t ∧ exec i s = .next u ∧
      t = { u with
        inputs := t.inputs, arb := t.arb, draws := t.draws, holdLow := t.holdLow, holdHigh := t.holdHigh }

/-- Rule R93: in the history of a state that meets the invariant, every exchange is made with CSn low inside a span,
`CsFall` and `CsRise` alternate starting with `CsFall`, no reset event lies inside a span, and CSn is low exactly inside
one. -/
def Obligations.HistoryKeepsTheSpanDiscipline : Prop :=
  ∀ s : State, BlockInv s →
    (s.cs = .low ↔ selectedAfter s.trace = true) ∧
    ∀ (p q : List BusEvent) (e : BusEvent), s.trace = p ++ e :: q →
      match e with
      | .csFall => selectedAfter p = false
      | .csRise => selectedAfter p = true
      | .rstFall => selectedAfter p = false
      | .rstRise => selectedAfter p = false
      | .xchg _ _ l => selectedAfter p = true ∧ l = .low

/-- Rules R141, R174 and R187 (property T2): before any exchange in the history of a state that meets the invariant, the
reset line has gone low and then high; the reset sequence has then been completed, and its last run held the line low and
then high for at least 100 ms each, which at 50 MHz are 5,000,000 periods. -/
def Obligations.ChipResetPrecedesEveryExchange : Prop :=
  ∀ s : State, BlockInv s →
    (∀ (p q : List BusEvent) (o i : Byte) (l : Level), s.trace = p ++ .xchg o i l :: q →
      ∃ p₁ p₂ p₃, p = p₁ ++ .rstFall :: (p₂ ++ .rstRise :: p₃)) ∧
    ((∃ o i l, .xchg o i l ∈ s.trace) → s.rstd = true) ∧
    (s.rstd = true → 5000000 ≤ s.holdLow ∧ 5000000 ≤ s.holdHigh)

/-- Rule R42: every command that completes leaves the block quiet and idle if it found it quiet; a block reset does so from
any state, and the state after reset is so. -/
def Obligations.CompletionRestoresIdle : Prop :=
  let idle (t : State) : Prop := quiet t ∧ t.cmdBusy = false ∧ t.cur = none ∧ t.ph = 0
  idle State.reset ∧
  (∀ (s : State) (rest : List Input), s.inputs = .blockReset :: rest → ∃ t, step s = .next t ∧ idle t) ∧
  ∀ (s t : State) (i : Instr), quiet s → exec i s = .next t → idle t

/-- Rule R23: only `SEL` writes CSn low and only `DESEL` writes it high; no other command, no DMA channel and no reset
sequence changes CSn: in the big steps, and agent by agent. -/
def Obligations.OnlySelectCommandsDriveChipSelect : Prop :=
  (∀ (s t : State) (i : Instr), exec i s = .next t →
    t.cs = match i with
      | .sel => .low
      | .desel => .high
      | .rdb | .wrb _ | .rdburst _ _ | .wrburst _ _ | .crst => s.cs) ∧
  (∀ (s t : State) (ag : Agent), act ag s = .next t → t.cs ≠ s.cs →
    ag = .eng ∧ ((s.cur = some .sel ∧ t.cs = .low) ∨ (s.cur = some .desel ∧ t.cs = .high)))

/-- Rules R24 and R25: of the commands and the agents only `CRST` writes the reset line and `RSTD`; after a block reset, from
any state, the line is high and `RSTD` false; `RSTD` is set by the last step of `CRST`, and of all steps of the machine only
a block reset clears it. -/
def Obligations.OnlyChipResetDrivesTheResetLine : Prop :=
  State.reset.rstl = .high ∧ State.reset.rstd = false ∧
  (∀ (s t : State) (i : Instr), exec i s = .next t →
    (i ≠ .crst → t.rstl = s.rstl ∧ t.rstd = s.rstd) ∧ (i = .crst → t.rstl = .high ∧ t.rstd = true)) ∧
  (∀ (s t : State) (ag : Agent), act ag s = .next t →
    (t.rstl ≠ s.rstl → ag = .eng ∧ s.cur = some .crst) ∧
    (t.rstd ≠ s.rstd → ag = .eng ∧ s.cur = some .crst ∧ s.ph ≠ 0 ∧ s.ph ≠ 1 ∧ t.rstd = true ∧ t.cmdBusy = false)) ∧
  (∀ (s : State) (rest : List Input), s.inputs = .blockReset :: rest →
    ∃ t, step s = .next t ∧ t.rstl = .high ∧ t.rstd = false) ∧
  (∀ s t : State, step s = .next t → s.rstd = true → t.rstd = false → ∃ rest, s.inputs = .blockReset :: rest)

/-- Rule R36: only ENG's burst set-up step loads a channel; else only the channel itself steps its own registers, and it
leaves its increment flags. -/
def Obligations.ChannelRegistersHaveOneWriter : Prop :=
  ∀ (s t : State) (ag : Agent), act ag s = .next t →
    (t.tx ≠ s.tx → (ag = .txch ∧ t.tx.incrR = s.tx.incrR ∧ t.tx.incrW = s.tx.incrW) ∨
      (ag = .eng ∧ s.ph = 0 ∧ ∃ i, s.cur = some i ∧ i.isBurst = true)) ∧
    (t.rx ≠ s.rx → (ag = .rxch ∧ t.rx.incrR = s.rx.incrR ∧ t.rx.incrW = s.rx.incrW) ∨
      (ag = .eng ∧ s.ph = 0 ∧ ∃ i, s.cur = some i ∧ i.isBurst = true))

/-- Rules R50, R57 and R61: of the commands only `RDBURST` changes memory, and of the agents only the receive channel and
the host. -/
def Obligations.OnlyReadBurstsChangeMemory : Prop :=
  (∀ (s t : State) (i : Instr), exec i s = .next t → (∀ a n, i ≠ .rdburst a n) → t.mem = s.mem) ∧
  (∀ (s t : State) (ag : Agent), act ag s = .next t → t.mem ≠ s.mem →
    (ag = .host ∧ ∃ a v rest, s.inputs = .store a v :: rest) ∨ (ag = .rxch ∧ ∃ a, s.rx.waddr = .mem a))

/-- Rules R6 and R77: the open parameters are fixed; no step changes them. -/
def Obligations.ParametersAreFixed : Prop :=
  ∀ s t : State, step s = .next t → t.params = s.params

/-- Rule R40: a step without a block reset only appends to the history. -/
def Obligations.HistoryOnlyGrows : Prop :=
  ∀ s t : State, (∀ rest, s.inputs ≠ .blockReset :: rest) → step s = .next t →
    ∃ es, t.trace = s.trace ++ es

/-! ## What goes over the bus -/

/-- Rule R132: `WRBURST a, L` and then `RDBURST b, L` in one span leave at `b` exactly the bytes at `a`, in order, if and
only if the slave answers the read burst's exchanges with the outbound bytes of the write burst; with a plain wire the
read burst stores 0xFF everywhere. -/
def Obligations.BurstRoundTripHoldsExactlyForStoringSlaves : Prop :=
  ∀ (s : State) (a b : Addr) (n : Len), s.cmdBusy = false → s.mem.wf → Lawful (.wrburst a n) s →
    Lawful (.rdburst b n) s →
    ∃ t u, exec (.wrburst a n) s = .next t ∧ exec (.rdburst b n) t = .next u ∧
      (memBytes u.mem b.toNat n.toNat = memBytes s.mem a.toNat n.toNat ↔
        (t.slave.answers (List.replicate n.toNat 0xFF)).1 = memBytes s.mem a.toNat n.toNat) ∧
      (s.slave = .wire → memBytes u.mem b.toNat n.toNat = List.replicate n.toNat 0xFF)

/-- Property T1 with the storing slave `SimMem` (rule R132; spec/95_test_vectors.md section 2): framed as that fixture
needs it, a write burst and then a read burst of any length return exactly the written bytes, in order. -/
def Obligations.StoringSlaveRoundTrip : Prop :=
  ∀ (s : State) (a b : Addr) (n : Len) (mode : SimMode) (store : List Byte) (rp : Nat),
    s.cmdBusy = false → s.mem.wf → s.cs = .high → s.rstd = true → s.slave = .simMem mode store rp →
    s.params.burstPath = true → n ≠ 0 → BufferAllocated s.params a n → BufferAllocated s.params b n →
    ∃ u, execAll [.sel, .wrb 0x01, .wrburst a n, .desel, .sel, .wrb 0x02, .rdburst b n, .desel] s = some u ∧
      memBytes u.mem b.toNat n.toNat = memBytes s.mem a.toNat n.toNat ∧ u.cs = .high

/-- Conflict C7 and program P3: a burst puts the same bytes on the bus as the same bytes moved one by one, so the slave
cannot tell them apart. They differ in where the data of a read is: the burst leaves the slave's answers in memory at
`a, ..., a+n-1` and gives a bare completion; the byte reads return the same answers in their completions and leave memory as
it was. That the two runs get equal answers rests on the slave being a function of what it was handed (rule R39), for the
real chip the model's choice (log entry 3, unsafe for the real chip in such a comparison). -/
def Obligations.BurstAndByteCommandsLookAlikeOnTheBus : Prop :=
  ∀ (s : State) (a : Addr) (n : Len), s.cmdBusy = false →
    (Lawful (.rdburst a n) s →
      let answers := (s.slave.answers (List.replicate n.toNat 0xFF)).1
      ∃ t u, exec (.rdburst a n) s = .next t ∧ execAll (List.replicate n.toNat .rdb) s = some u ∧
        t.trace = u.trace ∧ t.slave = u.slave ∧ t.cs = u.cs ∧ t.txd = u.txd ∧ t.rxd = u.rxd ∧
        (s.mem.wf → memBytes t.mem a.toNat n.toNat = answers) ∧ completions [.rdburst a n] s = [.bare] ∧
        completions (List.replicate n.toNat .rdb) s = answers.map .byte ∧ u.mem = s.mem) ∧
    (Lawful (.wrburst a n) s →
      ∃ t u, exec (.wrburst a n) s = .next t ∧
        execAll ((memBytes s.mem a.toNat n.toNat).map .wrb) s = some u ∧
        t.trace = u.trace ∧ t.slave = u.slave ∧ t.cs = u.cs ∧ t.txd = u.txd ∧ t.rxd = u.rxd ∧ t.mem = u.mem ∧
        completions [.wrburst a n] s = [.bare] ∧
        completions ((memBytes s.mem a.toNat n.toNat).map .wrb) s = List.replicate n.toNat .bare)

/-- Rules R53, R61 and R118: nothing in memory reaches the bus in a read burst, and in a write burst nothing but the bytes
of the buffer does: two states that differ in memory alone, for the write burst outside the buffer, give the slave the same
history. That its answers are then equal too rests on the slave being a function of what it was handed (rule R39), for the
real chip the model's choice (log entry 3, unsafe for the real chip in such a comparison). -/
def Obligations.OnlyTheBufferReachesTheBus : Prop :=
  ∀ (s : State) (m : Memory) (a : Addr) (n : Len) (t u : State),
    (exec (.rdburst a n) s = .next t → exec (.rdburst a n) { s with mem := m } = .next u →
      u.trace = t.trace ∧ u.slave = t.slave) ∧
    (memBytes m a.toNat n.toNat = memBytes s.mem a.toNat n.toNat →
      exec (.wrburst a n) s = .next t → exec (.wrburst a n) { s with mem := m } = .next u →
      u = { t with mem := m })
end

