-- ==== Sys2Proof/Laws/State.lean ====
section
/-!
SUPPORT. What each shared update of the state leaves in each field, so that no later proof unfolds a record update.
-/

namespace Sys2Proof.Machine

/-! `emit` -/

@[simp] theorem emit_cs (e : BusEvent) (s : State) : (emit e s).cs = s.cs := rfl
@[simp] theorem emit_rstl (e : BusEvent) (s : State) : (emit e s).rstl = s.rstl := rfl
@[simp] theorem emit_rstd (e : BusEvent) (s : State) : (emit e s).rstd = s.rstd := rfl
@[simp] theorem emit_txd (e : BusEvent) (s : State) : (emit e s).txd = s.txd := rfl
@[simp] theorem emit_txf (e : BusEvent) (s : State) : (emit e s).txf = s.txf := rfl
@[simp] theorem emit_rxd (e : BusEvent) (s : State) : (emit e s).rxd = s.rxd := rfl
@[simp] theorem emit_rxf (e : BusEvent) (s : State) : (emit e s).rxf = s.rxf := rfl
@[simp] theorem emit_tx (e : BusEvent) (s : State) : (emit e s).tx = s.tx := rfl
@[simp] theorem emit_rx (e : BusEvent) (s : State) : (emit e s).rx = s.rx := rfl
@[simp] theorem emit_scratch (e : BusEvent) (s : State) : (emit e s).scratch = s.scratch := rfl
@[simp] theorem emit_cmdBusy (e : BusEvent) (s : State) : (emit e s).cmdBusy = s.cmdBusy := rfl
@[simp] theorem emit_cur (e : BusEvent) (s : State) : (emit e s).cur = s.cur := rfl
@[simp] theorem emit_ph (e : BusEvent) (s : State) : (emit e s).ph = s.ph := rfl
@[simp] theorem emit_trace (e : BusEvent) (s : State) : (emit e s).trace = s.trace ++ [e] := rfl
@[simp] theorem emit_timer (e : BusEvent) (s : State) : (emit e s).timer = s.timer := rfl
@[simp] theorem emit_holdLow (e : BusEvent) (s : State) : (emit e s).holdLow = s.holdLow := rfl
@[simp] theorem emit_holdHigh (e : BusEvent) (s : State) : (emit e s).holdHigh = s.holdHigh := rfl
@[simp] theorem emit_resp (e : BusEvent) (s : State) : (emit e s).resp = s.resp := rfl
@[simp] theorem emit_mem (e : BusEvent) (s : State) : (emit e s).mem = s.mem := rfl
@[simp] theorem emit_slave (e : BusEvent) (s : State) : (emit e s).slave = s.slave.notice e := rfl
@[simp] theorem emit_params (e : BusEvent) (s : State) : (emit e s).params = s.params := rfl
@[simp] theorem emit_inputs (e : BusEvent) (s : State) : (emit e s).inputs = s.inputs := rfl
@[simp] theorem emit_arb (e : BusEvent) (s : State) : (emit e s).arb = s.arb := rfl
@[simp] theorem emit_draws (e : BusEvent) (s : State) : (emit e s).draws = s.draws := rfl

/-! `complete` -/

@[simp] theorem complete_cs (c : Completion) (s : State) : (complete c s).cs = s.cs := rfl
@[simp] theorem complete_rstl (c : Completion) (s : State) : (complete c s).rstl = s.rstl := rfl
@[simp] theorem complete_rstd (c : Completion) (s : State) : (complete c s).rstd = s.rstd := rfl
@[simp] theorem complete_txd (c : Completion) (s : State) : (complete c s).txd = s.txd := rfl
@[simp] theorem complete_txf (c : Completion) (s : State) : (complete c s).txf = s.txf := rfl
@[simp] theorem complete_rxd (c : Completion) (s : State) : (complete c s).rxd = s.rxd := rfl
@[simp] theorem complete_rxf (c : Completion) (s : State) : (complete c s).rxf = s.rxf := rfl
@[simp] theorem complete_tx (c : Completion) (s : State) : (complete c s).tx = s.tx := rfl
@[simp] theorem complete_rx (c : Completion) (s : State) : (complete c s).rx = s.rx := rfl
@[simp] theorem complete_scratch (c : Completion) (s : State) : (complete c s).scratch = s.scratch := rfl
@[simp] theorem complete_cmdBusy (c : Completion) (s : State) : (complete c s).cmdBusy = false := rfl
@[simp] theorem complete_cur (c : Completion) (s : State) : (complete c s).cur = none := rfl
@[simp] theorem complete_ph (c : Completion) (s : State) : (complete c s).ph = 0 := rfl
@[simp] theorem complete_trace (c : Completion) (s : State) : (complete c s).trace = s.trace := rfl
@[simp] theorem complete_timer (c : Completion) (s : State) : (complete c s).timer = s.timer := rfl
@[simp] theorem complete_holdLow (c : Completion) (s : State) : (complete c s).holdLow = s.holdLow := rfl
@[simp] theorem complete_holdHigh (c : Completion) (s : State) : (complete c s).holdHigh = s.holdHigh := rfl
@[simp] theorem complete_resp (c : Completion) (s : State) : (complete c s).resp = some c := rfl
@[simp] theorem complete_mem (c : Completion) (s : State) : (complete c s).mem = s.mem := rfl
@[simp] theorem complete_slave (c : Completion) (s : State) : (complete c s).slave = s.slave := rfl
@[simp] theorem complete_params (c : Completion) (s : State) : (complete c s).params = s.params := rfl
@[simp] theorem complete_inputs (c : Completion) (s : State) : (complete c s).inputs = s.inputs := rfl
@[simp] theorem complete_arb (c : Completion) (s : State) : (complete c s).arb = s.arb := rfl
@[simp] theorem complete_draws (c : Completion) (s : State) : (complete c s).draws = s.draws := rfl

/-! `accepted` -/

@[simp] theorem accepted_cs (i : Instr) (s : State) : (accepted i s).cs = s.cs := rfl
@[simp] theorem accepted_rstl (i : Instr) (s : State) : (accepted i s).rstl = s.rstl := rfl
@[simp] theorem accepted_rstd (i : Instr) (s : State) : (accepted i s).rstd = s.rstd := rfl
@[simp] theorem accepted_txd (i : Instr) (s : State) : (accepted i s).txd = s.txd := rfl
@[simp] theorem accepted_txf (i : Instr) (s : State) : (accepted i s).txf = s.txf := rfl
@[simp] theorem accepted_rxd (i : Instr) (s : State) : (accepted i s).rxd = s.rxd := rfl
@[simp] theorem accepted_rxf (i : Instr) (s : State) : (accepted i s).rxf = s.rxf := rfl
@[simp] theorem accepted_tx (i : Instr) (s : State) : (accepted i s).tx = s.tx := rfl
@[simp] theorem accepted_rx (i : Instr) (s : State) : (accepted i s).rx = s.rx := rfl
@[simp] theorem accepted_scratch (i : Instr) (s : State) : (accepted i s).scratch = s.scratch := rfl
@[simp] theorem accepted_cmdBusy (i : Instr) (s : State) : (accepted i s).cmdBusy = true := rfl
@[simp] theorem accepted_cur (i : Instr) (s : State) : (accepted i s).cur = some i := rfl
@[simp] theorem accepted_ph (i : Instr) (s : State) : (accepted i s).ph = 0 := rfl
@[simp] theorem accepted_trace (i : Instr) (s : State) : (accepted i s).trace = s.trace := rfl
@[simp] theorem accepted_timer (i : Instr) (s : State) : (accepted i s).timer = s.timer := rfl
@[simp] theorem accepted_holdLow (i : Instr) (s : State) : (accepted i s).holdLow = s.holdLow := rfl
@[simp] theorem accepted_holdHigh (i : Instr) (s : State) : (accepted i s).holdHigh = s.holdHigh := rfl
@[simp] theorem accepted_resp (i : Instr) (s : State) : (accepted i s).resp = none := rfl
@[simp] theorem accepted_mem (i : Instr) (s : State) : (accepted i s).mem = s.mem := rfl
@[simp] theorem accepted_slave (i : Instr) (s : State) : (accepted i s).slave = s.slave := rfl
@[simp] theorem accepted_params (i : Instr) (s : State) : (accepted i s).params = s.params := rfl
@[simp] theorem accepted_inputs (i : Instr) (s : State) : (accepted i s).inputs = s.inputs := rfl
@[simp] theorem accepted_arb (i : Instr) (s : State) : (accepted i s).arb = s.arb := rfl
@[simp] theorem accepted_draws (i : Instr) (s : State) : (accepted i s).draws = s.draws := rfl

/-! `transfer` -/

@[simp] theorem transfer_cs (o : Byte) (s : State) : (transfer o s).cs = s.cs := rfl
@[simp] theorem transfer_rstl (o : Byte) (s : State) : (transfer o s).rstl = s.rstl := rfl
@[simp] theorem transfer_rstd (o : Byte) (s : State) : (transfer o s).rstd = s.rstd := rfl
@[simp] theorem transfer_txd (o : Byte) (s : State) : (transfer o s).txd = o := rfl
@[simp] theorem transfer_txf (o : Byte) (s : State) : (transfer o s).txf = false := rfl
@[simp] theorem transfer_rxd (o : Byte) (s : State) : (transfer o s).rxd = (s.slave.exchange o).1 := rfl
@[simp] theorem transfer_rxf (o : Byte) (s : State) : (transfer o s).rxf = false := rfl
@[simp] theorem transfer_tx (o : Byte) (s : State) : (transfer o s).tx = s.tx := rfl
@[simp] theorem transfer_rx (o : Byte) (s : State) : (transfer o s).rx = s.rx := rfl
@[simp] theorem transfer_scratch (o : Byte) (s : State) : (transfer o s).scratch = s.scratch := rfl
@[simp] theorem transfer_cmdBusy (o : Byte) (s : State) : (transfer o s).cmdBusy = s.cmdBusy := rfl
@[simp] theorem transfer_cur (o : Byte) (s : State) : (transfer o s).cur = s.cur := rfl
@[simp] theorem transfer_ph (o : Byte) (s : State) : (transfer o s).ph = s.ph := rfl
@[simp] theorem transfer_trace (o : Byte) (s : State) : (transfer o s).trace = s.trace ++ [.xchg o (s.slave.exchange o).1 s.cs] := rfl
@[simp] theorem transfer_timer (o : Byte) (s : State) : (transfer o s).timer = s.timer := rfl
@[simp] theorem transfer_holdLow (o : Byte) (s : State) : (transfer o s).holdLow = s.holdLow := rfl
@[simp] theorem transfer_holdHigh (o : Byte) (s : State) : (transfer o s).holdHigh = s.holdHigh := rfl
@[simp] theorem transfer_resp (o : Byte) (s : State) : (transfer o s).resp = s.resp := rfl
@[simp] theorem transfer_mem (o : Byte) (s : State) : (transfer o s).mem = s.mem := rfl
@[simp] theorem transfer_slave (o : Byte) (s : State) : (transfer o s).slave = (s.slave.exchange o).2 := rfl
@[simp] theorem transfer_params (o : Byte) (s : State) : (transfer o s).params = s.params := rfl
@[simp] theorem transfer_inputs (o : Byte) (s : State) : (transfer o s).inputs = s.inputs := rfl
@[simp] theorem transfer_arb (o : Byte) (s : State) : (transfer o s).arb = s.arb := rfl
@[simp] theorem transfer_draws (o : Byte) (s : State) : (transfer o s).draws = s.draws := rfl

/-! `shiftAct` -/

@[simp] theorem shiftAct_cs (s : State) : (shiftAct s).cs = s.cs := rfl
@[simp] theorem shiftAct_rstl (s : State) : (shiftAct s).rstl = s.rstl := rfl
@[simp] theorem shiftAct_rstd (s : State) : (shiftAct s).rstd = s.rstd := rfl
@[simp] theorem shiftAct_txd (s : State) : (shiftAct s).txd = s.txd := rfl
@[simp] theorem shiftAct_txf (s : State) : (shiftAct s).txf = false := rfl
@[simp] theorem shiftAct_rxd (s : State) : (shiftAct s).rxd = (s.slave.exchange s.txd).1 := rfl
@[simp] theorem shiftAct_rxf (s : State) : (shiftAct s).rxf = true := rfl
@[simp] theorem shiftAct_tx (s : State) : (shiftAct s).tx = s.tx := rfl
@[simp] theorem shiftAct_rx (s : State) : (shiftAct s).rx = s.rx := rfl
@[simp] theorem shiftAct_scratch (s : State) : (shiftAct s).scratch = s.scratch := rfl
@[simp] theorem shiftAct_cmdBusy (s : State) : (shiftAct s).cmdBusy = s.cmdBusy := rfl
@[simp] theorem shiftAct_cur (s : State) : (shiftAct s).cur = s.cur := rfl
@[simp] theorem shiftAct_ph (s : State) : (shiftAct s).ph = s.ph := rfl
@[simp] theorem shiftAct_trace (s : State) : (shiftAct s).trace = s.trace ++ [.xchg s.txd (s.slave.exchange s.txd).1 s.cs] := rfl
@[simp] theorem shiftAct_timer (s : State) : (shiftAct s).timer = s.timer := rfl
@[simp] theorem shiftAct_holdLow (s : State) : (shiftAct s).holdLow = s.holdLow := rfl
@[simp] theorem shiftAct_holdHigh (s : State) : (shiftAct s).holdHigh = s.holdHigh := rfl
@[simp] theorem shiftAct_resp (s : State) : (shiftAct s).resp = s.resp := rfl
@[simp] theorem shiftAct_mem (s : State) : (shiftAct s).mem = s.mem := rfl
@[simp] theorem shiftAct_slave (s : State) : (shiftAct s).slave = (s.slave.exchange s.txd).2 := rfl
@[simp] theorem shiftAct_params (s : State) : (shiftAct s).params = s.params := rfl
@[simp] theorem shiftAct_inputs (s : State) : (shiftAct s).inputs = s.inputs := rfl
@[simp] theorem shiftAct_arb (s : State) : (shiftAct s).arb = s.arb := rfl
@[simp] theorem shiftAct_draws (s : State) : (shiftAct s).draws = s.draws := rfl

/-! `memWrite` -/

@[simp] theorem memWrite_cs (a : Addr) (v : Byte) (s : State) : (memWrite a v s).cs = s.cs := rfl
@[simp] theorem memWrite_rstl (a : Addr) (v : Byte) (s : State) : (memWrite a v s).rstl = s.rstl := rfl
@[simp] theorem memWrite_rstd (a : Addr) (v : Byte) (s : State) : (memWrite a v s).rstd = s.rstd := rfl
@[simp] theorem memWrite_txd (a : Addr) (v : Byte) (s : State) : (memWrite a v s).txd = s.txd := rfl
@[simp] theorem memWrite_txf (a : Addr) (v : Byte) (s : State) : (memWrite a v s).txf = s.txf := rfl
@[simp] theorem memWrite_rxd (a : Addr) (v : Byte) (s : State) : (memWrite a v s).rxd = s.rxd := rfl
@[simp] theorem memWrite_rxf (a : Addr) (v : Byte) (s : State) : (memWrite a v s).rxf = s.rxf := rfl
@[simp] theorem memWrite_tx (a : Addr) (v : Byte) (s : State) : (memWrite a v s).tx = s.tx := rfl
@[simp] theorem memWrite_rx (a : Addr) (v : Byte) (s : State) : (memWrite a v s).rx = s.rx := rfl
@[simp] theorem memWrite_scratch (a : Addr) (v : Byte) (s : State) : (memWrite a v s).scratch = s.scratch := rfl
@[simp] theorem memWrite_cmdBusy (a : Addr) (v : Byte) (s : State) : (memWrite a v s).cmdBusy = s.cmdBusy := rfl
@[simp] theorem memWrite_cur (a : Addr) (v : Byte) (s : State) : (memWrite a v s).cur = s.cur := rfl
@[simp] theorem memWrite_ph (a : Addr) (v : Byte) (s : State) : (memWrite a v s).ph = s.ph := rfl
@[simp] theorem memWrite_trace (a : Addr) (v : Byte) (s : State) : (memWrite a v s).trace = s.trace := rfl
@[simp] theorem memWrite_timer (a : Addr) (v : Byte) (s : State) : (memWrite a v s).timer = s.timer := rfl
@[simp] theorem memWrite_holdLow (a : Addr) (v : Byte) (s : State) : (memWrite a v s).holdLow = s.holdLow := rfl
@[simp] theorem memWrite_holdHigh (a : Addr) (v : Byte) (s : State) : (memWrite a v s).holdHigh = s.holdHigh := rfl
@[simp] theorem memWrite_resp (a : Addr) (v : Byte) (s : State) : (memWrite a v s).resp = s.resp := rfl
@[simp] theorem memWrite_mem (a : Addr) (v : Byte) (s : State) : (memWrite a v s).mem = s.mem.write a.toNat v := rfl
@[simp] theorem memWrite_slave (a : Addr) (v : Byte) (s : State) : (memWrite a v s).slave = s.slave := rfl
@[simp] theorem memWrite_params (a : Addr) (v : Byte) (s : State) : (memWrite a v s).params = s.params := rfl
@[simp] theorem memWrite_inputs (a : Addr) (v : Byte) (s : State) : (memWrite a v s).inputs = s.inputs := rfl
@[simp] theorem memWrite_arb (a : Addr) (v : Byte) (s : State) : (memWrite a v s).arb = s.arb := rfl
@[simp] theorem memWrite_draws (a : Addr) (v : Byte) (s : State) : (memWrite a v s).draws = s.draws := rfl

/-! `blockReset` -/

@[simp] theorem blockReset_cs (s : State) : (blockReset s).cs = State.reset.cs := rfl
@[simp] theorem blockReset_rstl (s : State) : (blockReset s).rstl = State.reset.rstl := rfl
@[simp] theorem blockReset_rstd (s : State) : (blockReset s).rstd = State.reset.rstd := rfl
@[simp] theorem blockReset_txd (s : State) : (blockReset s).txd = State.reset.txd := rfl
@[simp] theorem blockReset_txf (s : State) : (blockReset s).txf = State.reset.txf := rfl
@[simp] theorem blockReset_rxd (s : State) : (blockReset s).rxd = State.reset.rxd := rfl
@[simp] theorem blockReset_rxf (s : State) : (blockReset s).rxf = State.reset.rxf := rfl
@[simp] theorem blockReset_tx (s : State) : (blockReset s).tx = State.reset.tx := rfl
@[simp] theorem blockReset_rx (s : State) : (blockReset s).rx = State.reset.rx := rfl
@[simp] theorem blockReset_scratch (s : State) : (blockReset s).scratch = State.reset.scratch := rfl
@[simp] theorem blockReset_cmdBusy (s : State) : (blockReset s).cmdBusy = State.reset.cmdBusy := rfl
@[simp] theorem blockReset_cur (s : State) : (blockReset s).cur = State.reset.cur := rfl
@[simp] theorem blockReset_ph (s : State) : (blockReset s).ph = State.reset.ph := rfl
@[simp] theorem blockReset_trace (s : State) : (blockReset s).trace = State.reset.trace := rfl
@[simp] theorem blockReset_timer (s : State) : (blockReset s).timer = State.reset.timer := rfl
@[simp] theorem blockReset_holdLow (s : State) : (blockReset s).holdLow = State.reset.holdLow := rfl
@[simp] theorem blockReset_holdHigh (s : State) : (blockReset s).holdHigh = State.reset.holdHigh := rfl
@[simp] theorem blockReset_resp (s : State) : (blockReset s).resp = State.reset.resp := rfl
@[simp] theorem blockReset_mem (s : State) : (blockReset s).mem = s.mem := rfl
@[simp] theorem blockReset_slave (s : State) : (blockReset s).slave = s.slave := rfl
@[simp] theorem blockReset_params (s : State) : (blockReset s).params = s.params := rfl
@[simp] theorem blockReset_inputs (s : State) : (blockReset s).inputs = s.inputs := rfl
@[simp] theorem blockReset_arb (s : State) : (blockReset s).arb = s.arb := rfl
@[simp] theorem blockReset_draws (s : State) : (blockReset s).draws = s.draws := rfl

/-! `choiceTaken` -/

@[simp] theorem choiceTaken_cs (s : State) : (choiceTaken s).cs = s.cs := rfl
@[simp] theorem choiceTaken_rstl (s : State) : (choiceTaken s).rstl = s.rstl := rfl
@[simp] theorem choiceTaken_rstd (s : State) : (choiceTaken s).rstd = s.rstd := rfl
@[simp] theorem choiceTaken_txd (s : State) : (choiceTaken s).txd = s.txd := rfl
@[simp] theorem choiceTaken_txf (s : State) : (choiceTaken s).txf = s.txf := rfl
@[simp] theorem choiceTaken_rxd (s : State) : (choiceTaken s).rxd = s.rxd := rfl
@[simp] theorem choiceTaken_rxf (s : State) : (choiceTaken s).rxf = s.rxf := rfl
@[simp] theorem choiceTaken_tx (s : State) : (choiceTaken s).tx = s.tx := rfl
@[simp] theorem choiceTaken_rx (s : State) : (choiceTaken s).rx = s.rx := rfl
@[simp] theorem choiceTaken_scratch (s : State) : (choiceTaken s).scratch = s.scratch := rfl
@[simp] theorem choiceTaken_cmdBusy (s : State) : (choiceTaken s).cmdBusy = s.cmdBusy := rfl
@[simp] theorem choiceTaken_cur (s : State) : (choiceTaken s).cur = s.cur := rfl
@[simp] theorem choiceTaken_ph (s : State) : (choiceTaken s).ph = s.ph := rfl
@[simp] theorem choiceTaken_trace (s : State) : (choiceTaken s).trace = s.trace := rfl
@[simp] theorem choiceTaken_timer (s : State) : (choiceTaken s).timer = s.timer := rfl
@[simp] theorem choiceTaken_holdLow (s : State) : (choiceTaken s).holdLow = s.holdLow := rfl
@[simp] theorem choiceTaken_holdHigh (s : State) : (choiceTaken s).holdHigh = s.holdHigh := rfl
@[simp] theorem choiceTaken_resp (s : State) : (choiceTaken s).resp = s.resp := rfl
@[simp] theorem choiceTaken_mem (s : State) : (choiceTaken s).mem = s.mem := rfl
@[simp] theorem choiceTaken_slave (s : State) : (choiceTaken s).slave = s.slave := rfl
@[simp] theorem choiceTaken_params (s : State) : (choiceTaken s).params = s.params := rfl
@[simp] theorem choiceTaken_inputs (s : State) : (choiceTaken s).inputs = s.inputs := rfl
@[simp] theorem choiceTaken_arb (s : State) : (choiceTaken s).arb = s.arb.tail := rfl
@[simp] theorem choiceTaken_draws (s : State) : (choiceTaken s).draws = s.draws + 1 := rfl

end Sys2Proof.Machine
end

