-- ==== Sys2Proof/Laws/Memory.lean ====
section
/-!
SUPPORT. The laws of memory: a store keeps the canonical form, a load after a store to the same address gives the byte
stored, and a store leaves every other address alone (spec/20_memory.md rules R55 and R56).
-/

namespace Sys2Proof.Machine

/-- Every key of the tail of a canonical memory is above the head's. -/
theorem Memory.wf_cons {k : Nat} {v : Byte} {m : Memory} :
    Memory.wf ((k, v) :: m) ↔
      (∀ c ∈ m, k < c.1) ∧ k < 2 ^ 32 ∧ v ≠ Memory.unlisted ∧ Memory.wf m := by
  simp only [Memory.wf, List.pairwise_cons, List.forall_mem_cons]
  tauto

/-- An address below every key is unlisted. -/
theorem Memory.read_of_lt {m : Memory} {a : Nat} (h : ∀ c ∈ m, a < c.1) :
    m.read a = Memory.unlisted := by
  induction m with
  | nil => rfl
  | cons c m ih =>
    have hc := h c (by simp)
    simp only [Memory.read, if_neg (show c.1 ≠ a by omega)]
    exact ih fun d hd => h d (by simp [hd])

/-- The keys after a store: the old ones and the address stored to. -/
theorem Memory.mem_write {m : Memory} {a : Nat} {v : Byte} {c : Host.Cell} (h : c ∈ m.write a v) :
    c = (a, v) ∨ c ∈ m := by
  induction m with
  | nil => simp only [Memory.write] at h; split at h <;> simp_all
  | cons d m ih =>
    simp only [Memory.write] at h
    split at h <;> [skip; split at h] <;> [split at h; split at h; skip] <;> simp_all
    · tauto
    · rcases h with h | h
      · exact .inr (.inl h)
      · rcases ih h with h | h <;> simp [h]

/-- No entry of a stored-to memory equals what an unlisted address reads as because of the store. -/
theorem Memory.mem_write_ne {m : Memory} {a : Nat} {v : Byte} {c : Host.Cell} (h : c ∈ m.write a v)
    (hm : ∀ c ∈ m, c.2 ≠ Memory.unlisted) : c.2 ≠ Memory.unlisted := by
  induction m with
  | nil => simp only [Memory.write] at h; split at h <;> simp_all
  | cons d m ih =>
    have hd := hm d (by simp)
    have ht : ∀ c ∈ m, c.2 ≠ Memory.unlisted := fun c hc => hm c (by simp [hc])
    simp only [Memory.write] at h
    split at h <;> [skip; split at h] <;> [split at h; split at h; skip] <;>
      try simp only [List.mem_cons] at h
    · rcases h with rfl | h
      · exact hd
      · exact ht c h
    · rcases h with rfl | rfl | h
      · assumption
      · exact hd
      · exact ht c h
    · exact ht c h
    · rcases h with rfl | h
      · assumption
      · exact ht c h
    · rcases h with rfl | h
      · exact hd
      · exact ih h ht

/-- A store inside the address space keeps the canonical form. -/
theorem Memory.write_wf {m : Memory} (hm : m.wf) {a : Nat} (ha : a < 2 ^ 32) (v : Byte) :
    (m.write a v).wf := by
  refine ⟨?_, fun c hc => ⟨?_, Memory.mem_write_ne hc fun c hc => (hm.2 c hc).2⟩⟩
  · have hp := hm.1
    clear hm ha
    induction m with
    | nil => simp only [Memory.write]; split <;> simp
    | cons d m ih =>
      obtain ⟨hd, ht⟩ := List.pairwise_cons.1 hp
      simp only [Memory.write]
      split
      · split
        · exact hp
        · refine List.pairwise_cons.2 ⟨fun c hc => ?_, hp⟩
          rcases List.mem_cons.1 hc with rfl | hc
          · assumption
          · have := hd c hc; omega
      · split
        · split
          · exact ht
          · refine List.pairwise_cons.2 ⟨fun c hc => ?_, ht⟩
            have := hd c hc; simp only; omega
        · refine List.pairwise_cons.2 ⟨fun c hc => ?_, ih ht⟩
          rcases Memory.mem_write hc with rfl | hc
          · simp only; omega
          · exact hd c hc
  · rcases Memory.mem_write hc with rfl | hc
    · exact ha
    · exact (hm.2 c hc).1

/-- A load after a store to the same address gives the byte stored. -/
theorem Memory.read_write_same {m : Memory} (hm : m.wf) (a : Nat) (v : Byte) : (m.write a v).read a = v := by
  induction m with
  | nil => simp only [Memory.write]; split <;> simp_all [Memory.read]
  | cons d m ih =>
    obtain ⟨k, w⟩ := d
    obtain ⟨hd, -, -, ht⟩ := Memory.wf_cons.1 hm
    simp only [Memory.write]
    split <;> [skip; split] <;> [split; split; skip]
    · rename_i h hv
      rw [hv]
      exact Memory.read_of_lt fun c hc => by
        rcases List.mem_cons.1 hc with rfl | hc
        · exact h
        · have := hd c hc; omega
    · simp [Memory.read]
    · rename_i h hv
      subst h hv
      exact Memory.read_of_lt hd
    · simp [Memory.read]
    · rename_i h
      simp [Memory.read, Ne.symm h, ih ht]

/-- A store leaves every other address alone. -/
theorem Memory.read_write_other {m : Memory} (hm : m.wf) {a b : Nat} (h : b ≠ a) (v : Byte) :
    (m.write a v).read b = m.read b := by
  induction m with
  | nil => simp only [Memory.write]; split <;> simp [Memory.read, Ne.symm h]
  | cons d m ih =>
    obtain ⟨k, w⟩ := d
    obtain ⟨-, -, -, ht⟩ := Memory.wf_cons.1 hm
    simp only [Memory.write]
    split <;> [skip; split] <;> [split; split; skip]
    · rfl
    · simp [Memory.read, Ne.symm h]
    · rename_i e hv
      subst e
      simp [Memory.read, Ne.symm h]
    · rename_i e hv
      subst e
      simp [Memory.read, Ne.symm h]
    · simp [Memory.read, ih ht]

/-- A store by the block keeps the canonical form: a 32-bit address is inside the address space. -/
theorem memWrite_wf {s : State} (h : s.mem.wf) (a : Addr) (v : Byte) : (memWrite a v s).mem.wf :=
  Memory.write_wf h a.isLt v

/-- A store by the host keeps the canonical form. -/
theorem hostStore_wf {s : State} (h : s.mem.wf) (a : Addr) (v : Byte) : (hostStore a v s).mem.wf :=
  Memory.write_wf h a.isLt v

/-- The memory of the state after reset has the canonical form. -/
theorem reset_mem_wf : State.reset.mem.wf := by decide

end Sys2Proof.Machine
end

