-- ==== Sys2Proof/Laws/Ops.lean ====
section
/-!
SUPPORT. What each shared operation can do, said once: issuing a command, the buffer check, the loops of the bursts' big
steps, running schedules, and the discipline of a history.
-/

namespace Sys2Proof.Machine

/-! ## Issuing a command (rules R41 and R151) -/

/-- A command has a next state exactly when the port is idle and its contract holds; it is then the big step's. -/
theorem issue_eq_next {broken : Option Refusal} {f : State → State} {s t : State} :
    issue broken f s = .next t ↔ s.cmdBusy = false ∧ broken = none ∧ f s = t := by
  unfold issue
  cases s.cmdBusy <;> cases broken <;> simp

/-- A command is refused because another is in progress, or because its contract is broken. -/
theorem issue_eq_refused {broken : Option Refusal} {f : State → State} {s : State} {r : Refusal} :
    issue broken f s = .refused r ↔
      (s.cmdBusy = true ∧ r = .portBusy) ∨ (s.cmdBusy = false ∧ broken = some r) := by
  unfold issue
  cases s.cmdBusy <;> cases broken <;> simp [eq_comm]

/-- Issuing a command is never a fault (rule R150). -/
theorem issue_ne_fault {broken : Option Refusal} {f : State → State} {s : State} (e : Fault) :
    issue broken f s ≠ .fault e := by
  unfold issue
  cases s.cmdBusy <;> cases broken <;> simp

/-! ## The buffer check (rule R52) -/

theorem allInAlloc_iff {p : Params} {x n : Nat} :
    allInAlloc p x n = true ↔ ∀ k < n, inAlloc p (x + k) = true := by
  induction n generalizing x with
  | zero => simp [allInAlloc]
  | succ n ih =>
    simp only [allInAlloc, Bool.and_eq_true, ih]
    constructor
    · rintro ⟨h0, h⟩ k hk
      cases k with
      | zero => exact h0
      | succ k => rw [show x + (k + 1) = x + 1 + k by omega]; exact h k (by omega)
    · exact fun h => ⟨h 0 (by omega), fun k hk => by
        rw [show x + 1 + k = x + (k + 1) by omega]; exact h (k + 1) (by omega)⟩

theorem anyOnDevice_iff {p : Params} {x n : Nat} :
    anyOnDevice p x n = true ↔ ∃ k < n, onDevice p (x + k) = true := by
  induction n generalizing x with
  | zero => simp [anyOnDevice]
  | succ n ih =>
    simp only [anyOnDevice, Bool.or_eq_true, ih]
    constructor
    · rintro (h | ⟨k, hk, h⟩)
      · exact ⟨0, by omega, h⟩
      · exact ⟨k + 1, by omega, by rw [show x + (k + 1) = x + 1 + k by omega]; exact h⟩
    · rintro ⟨k, hk, h⟩
      cases k with
      | zero => exact .inl h
      | succ k => exact .inr ⟨k, by omega, by rw [show x + 1 + k = x + (k + 1) by omega]; exact h⟩

/-- The computed check says what rule R52 says. -/
theorem bufferOk_iff {p : Params} {a : Addr} {n : Len} :
    bufferOk p a n = true ↔ BufferAllocated p a n := by
  simp [bufferOk, BufferAllocated, allInAlloc_iff]

/-- The computed contract is none exactly when the rule's preconditions hold. -/
theorem contract_eq_none {i : Instr} {s : State} : contract i s = none ↔ Lawful i s := by
  cases i <;> simp only [contract, selContract, deselContract, transferContract, burstContract, crstContract, Lawful,
    ← bufferOk_iff] <;> cases s.cs <;> simp <;> grind

/-! ## The loops of the bursts' big steps (rules R110 and R111) -/

/-- A read burst's loop changes the data register, the history, memory and the slave, and nothing else. -/
theorem rdburstLoop_frame (n : Nat) (a : Addr) (s : State) :
    let t := rdburstLoop n a s
    t = { s with
      txd := t.txd, txf := t.txf, rxd := t.rxd, rxf := t.rxf, trace := t.trace, mem := t.mem, slave := t.slave } := by
  induction n generalizing a s with
  | zero => rfl
  | succ n ih => exact ih (a + 1) (memWrite a (transfer Config.fill s).rxd (transfer Config.fill s))

/-- A write burst's loop changes the data register, the history, the scratch byte and the slave, and nothing else. -/
theorem wrburstLoop_frame (n : Nat) (a : Addr) (s : State) :
    let t := wrburstLoop n a s
    t = { s with
      txd := t.txd, txf := t.txf, rxd := t.rxd, rxf := t.rxf, trace := t.trace, scratch := t.scratch
      slave := t.slave } := by
  induction n generalizing a s with
  | zero => rfl
  | succ n ih =>
    exact ih (a + 1) { transfer (memRead s a) s with scratch := (transfer (memRead s a) s).rxd }

/-! ## Schedules (rule R125) -/

theorem runMoves_append (l m : List Move) (s : State) :
    runMoves (l ++ m) s = (runMoves l s).bind (runMoves m) := by
  induction l generalizing s with
  | nil => rfl
  | cons x l ih =>
    simp only [List.cons_append, runMoves]
    cases runMove x s with
    | none => rfl
    | some t => exact ih t

theorem runAgents_append (l m : List Agent) (s : State) :
    runAgents (l ++ m) s = (runAgents l s).bind (runAgents m) := by
  simp only [runAgents, List.map_append, runMoves_append]
  rfl

/-- One agent's turn: it is enabled, and its step has a next state. -/
theorem runMove_agent_eq_some {ag : Agent} {s t : State} :
    runMove (.agent ag) s = some t ↔ enabled ag s = true ∧ act ag s = .next t := by
  simp only [runMove]
  cases enabled ag s <;> cases act ag s <;> simp

theorem runAgents_cons_eq_some {ag : Agent} {l : List Agent} {s u : State} :
    runAgents (ag :: l) s = some u ↔
      ∃ t, enabled ag s = true ∧ act ag s = .next t ∧ runAgents l t = some u := by
  simp only [runAgents, List.map_cons, runMoves, Option.bind_eq_some_iff, runMove_agent_eq_some]
  tauto

theorem runAgents_concat_eq_some {ag : Agent} {l : List Agent} {s u : State} :
    runAgents (l ++ [ag]) s = some u ↔
      ∃ t, runAgents l s = some t ∧ enabled ag t = true ∧ act ag t = .next u := by
  rw [runAgents_append, Option.bind_eq_some_iff]
  simp only [runAgents_cons_eq_some]
  constructor
  · rintro ⟨t, h, v, he, ha, hv⟩
    obtain rfl : v = u := by simpa [runAgents, runMoves] using hv
    exact ⟨t, h, he, ha⟩
  · rintro ⟨t, h, he, ha⟩
    exact ⟨t, h, u, he, ha, rfl⟩

/-! ## The discipline of a history (rule R93) -/

theorem afterAll_append (p : Pins) (es fs : List BusEvent) :
    p.afterAll (es ++ fs) = (p.afterAll es).bind (Pins.afterAll · fs) := by
  induction es generalizing p with
  | nil => rfl
  | cons e es ih =>
    simp only [List.cons_append, Pins.afterAll]
    cases p.after e with
    | none => rfl
    | some q => exact ih q

/-- One more event at the end of a history. -/
theorem afterAll_concat {p q : Pins} {es : List BusEvent} (h : p.afterAll es = some q) (e : BusEvent) :
    p.afterAll (es ++ [e]) = q.after e := by
  rw [afterAll_append, h]
  simp [Pins.afterAll]

/-- The invariant does not look at what the outside does next, at the arbiter's preferences or at the model's counter. -/
theorem BlockInv.of_environment {s : State} (h : BlockInv s) (l : List Input) (m : List Agent) (d : Nat) :
    BlockInv { s with inputs := l, arb := m, draws := d } where
  memory := h.memory
  history := h.history
  selected := h.selected
  holds := h.holds
  txBusy := h.txBusy
  rxBusy := h.rxBusy
  idle := h.idle
  running hb := by
    obtain ⟨i, hc, hr⟩ := h.running hb
    refine ⟨i, hc, ?_⟩
    cases i <;> exact hr

end Sys2Proof.Machine
end

