-- ==== Sys2Proof/Laws/Burst.lean ====
section
/-!
SUPPORT. The bursts' big steps in closed form (spec/42_burst_transfer.md rules R110 and R111): the slave asked for one
outbound byte after another, the bytes stored one after another, and the loops as exactly that.
-/

namespace Sys2Proof.Machine

/-! ## The slave asked for one byte after another -/

theorem answers_concat (sl : Slave) (os : List Byte) (o : Byte) :
    sl.answers (os ++ [o]) =
      ((sl.answers os).1 ++ [((sl.answers os).2.exchange o).1], ((sl.answers os).2.exchange o).2) := by
  induction os generalizing sl with
  | nil => rfl
  | cons p os ih => simp [Slave.answers, ih]

@[simp] theorem length_answers (sl : Slave) (os : List Byte) : (sl.answers os).1.length = os.length := by
  induction os generalizing sl with
  | nil => rfl
  | cons o os ih => simp [Slave.answers, ih]

/-! ## Histories of exchanges -/

theorem exchanges_concat {os is : List Byte} (h : is.length = os.length) (o i : Byte) :
    exchanges (os ++ [o]) (is ++ [i]) = exchanges os is ++ [.xchg o i .low] := by
  simp [exchanges, List.zipWith_append h.symm]

/-! ## Bytes stored one after another -/

/-- The bytes `bs` stored at `a, a+1, ...` (modulo the size of the address space), in this order. -/
def storeAll (m : Memory) (a : Addr) : List Byte → Memory
  | [] => m
  | b :: bs => storeAll (m.write a.toNat b) (a + 1) bs

/-- The address after the next `k` ones is the `k + 1`-th (rule R126). -/
theorem next_add (a : Addr) (k : Nat) : a + 1 + BitVec.ofNat 32 k = a + BitVec.ofNat 32 (k + 1) := by
  rw [BitVec.add_assoc, show (1 : Addr) = BitVec.ofNat 32 1 from rfl, ← BitVec.ofNat_add, Nat.add_comm]

theorem storeAll_concat (m : Memory) (a : Addr) (bs : List Byte) (b : Byte) :
    storeAll m a (bs ++ [b]) = (storeAll m a bs).write (a + BitVec.ofNat 32 bs.length).toNat b := by
  induction bs generalizing m a with
  | nil => simp [storeAll]
  | cons c bs ih =>
    simp only [List.cons_append, storeAll, ih, List.length_cons]
    rw [next_add]

/-- Storing keeps the canonical form. -/
theorem storeAll_wf {m : Memory} (h : m.wf) (a : Addr) (bs : List Byte) : (storeAll m a bs).wf := by
  induction bs generalizing m a with
  | nil => exact h
  | cons b bs ih => exact ih (Memory.write_wf h a.isLt b) _

theorem toNat_add_ofNat {a : Addr} {k n : Nat} (h : a.toNat + n ≤ 2 ^ 32) (hk : k < n) :
    (a + BitVec.ofNat 32 k).toNat = a.toNat + k := by
  rw [BitVec.toNat_add, BitVec.toNat_ofNat, Nat.mod_eq_of_lt (show k < 2 ^ 32 by omega), Nat.mod_eq_of_lt (by omega)]

/-- Where the bytes do not wrap, the k-th reads back at `a + k`. -/
theorem storeAll_read {m : Memory} (h : m.wf) {a : Addr} {bs : List Byte} (hw : a.toNat + bs.length ≤ 2 ^ 32) {k : Nat}
    (hk : k < bs.length) : (storeAll m a bs).read (a.toNat + k) = bs[k] := by
  induction bs using List.reverseRecOn with
  | nil => simp at hk
  | append_singleton bs b ih =>
    simp only [List.length_append, List.length_singleton] at hw hk
    rw [storeAll_concat, toNat_add_ofNat hw (by omega)]
    by_cases e : k = bs.length
    · subst e
      simp [Memory.read_write_same (storeAll_wf h a bs)]
    · rw [Memory.read_write_other (storeAll_wf h a bs) (by omega), ih (by omega) (by omega),
        List.getElem_append_left]

/-- Every other byte reads as before. -/
theorem storeAll_read_other {m : Memory} (h : m.wf) {a : Addr} {bs : List Byte} (hw : a.toNat + bs.length ≤ 2 ^ 32)
    {x : Nat} (hx : x < a.toNat ∨ a.toNat + bs.length ≤ x) : (storeAll m a bs).read x = m.read x := by
  induction bs using List.reverseRecOn with
  | nil => rfl
  | append_singleton bs b ih =>
    simp only [List.length_append, List.length_singleton] at hw hx
    rw [storeAll_concat, toNat_add_ofNat hw (by omega), Memory.read_write_other (storeAll_wf h a bs) (by omega),
      ih (by omega) (by omega)]

/-! ## The loops, one byte at the end, and in closed form -/

theorem rdburstLoop_succ (n : Nat) (a : Addr) (s : State) :
    rdburstLoop (n + 1) a s =
      (let t := transfer Config.fill (rdburstLoop n a s)
       memWrite (a + BitVec.ofNat 32 n) t.rxd t) := by
  induction n generalizing a s with
  | zero => simp [rdburstLoop]
  | succ n ih =>
    rw [rdburstLoop, ih]
    simp only [rdburstLoop]
    rw [next_add]

theorem wrburstLoop_succ (n : Nat) (a : Addr) (s : State) :
    wrburstLoop (n + 1) a s =
      (let t := transfer (memRead s (a + BitVec.ofNat 32 n)) (wrburstLoop n a s)
       { t with scratch := t.rxd }) := by
  induction n generalizing a s with
  | zero => simp [wrburstLoop]
  | succ n ih =>
    rw [wrburstLoop, ih]
    simp only [wrburstLoop]
    rw [next_add]
    rfl

/-- What the transmit channel sends in a write burst: the bytes at `a, a+1, ...` (modulo the size of the space). -/
def outbound (s : State) (a : Addr) (n : Nat) : List Byte :=
  (List.range n).map fun k => memRead s (a + BitVec.ofNat 32 k)

theorem outbound_succ (s : State) (a : Addr) (n : Nat) :
    outbound s a (n + 1) = outbound s a n ++ [memRead s (a + BitVec.ofNat 32 n)] := by
  simp [outbound, List.range_succ]

@[simp] theorem length_outbound (s : State) (a : Addr) (n : Nat) : (outbound s a n).length = n := by simp [outbound]

/-- Without a wrap those are the bytes of the buffer. -/
theorem outbound_eq_memBytes {s : State} {a : Addr} {n : Nat} (h : a.toNat + n ≤ 2 ^ 32) :
    outbound s a n = memBytes s.mem a.toNat n := by
  refine List.map_congr_left fun k hk => ?_
  rw [memRead, toNat_add_ofNat h (List.mem_range.1 hk)]

/-- A read burst's loop with CSn low: `n` exchanges of `FILL`, the answers stored one after another. -/
theorem rdburstLoop_closed (n : Nat) (a : Addr) {s : State} (hcs : s.cs = .low) :
    let r := s.slave.answers (List.replicate n Config.fill)
    (rdburstLoop n a s).trace = s.trace ++ exchanges (List.replicate n Config.fill) r.1 ∧
    (rdburstLoop n a s).slave = r.2 ∧
    (rdburstLoop n a s).mem = storeAll s.mem a r.1 ∧
    (0 < n → (rdburstLoop n a s).txd = Config.fill ∧ r.1.getLast? = some (rdburstLoop n a s).rxd ∧
      (rdburstLoop n a s).txf = false ∧ (rdburstLoop n a s).rxf = false) := by
  induction n with
  | zero => simp [rdburstLoop, Slave.answers, exchanges, storeAll]
  | succ n ih =>
    obtain ⟨h1, h2, h3, -⟩ := ih
    have hc : (rdburstLoop n a s).cs = .low := by rw [rdburstLoop_frame]; exact hcs
    simp only [List.replicate_succ', answers_concat, rdburstLoop_succ]
    refine ⟨?_, by simp [h2], ?_, fun _ => by simp [h2]⟩
    · simp [h1, h2, hc, exchanges_concat]
    · simp [h3, h2, storeAll_concat]

/-- A write burst's loop with CSn low: the bytes sent one after another, the last answer in the scratch byte. -/
theorem wrburstLoop_closed (n : Nat) (a : Addr) {s : State} (hcs : s.cs = .low) :
    let r := s.slave.answers (outbound s a n)
    (wrburstLoop n a s).trace = s.trace ++ exchanges (outbound s a n) r.1 ∧
    (wrburstLoop n a s).slave = r.2 ∧
    (0 < n → (outbound s a n).getLast? = some (wrburstLoop n a s).txd ∧
      r.1.getLast? = some (wrburstLoop n a s).rxd ∧ (wrburstLoop n a s).scratch = (wrburstLoop n a s).rxd ∧
      (wrburstLoop n a s).txf = false ∧ (wrburstLoop n a s).rxf = false) := by
  induction n with
  | zero => simp [wrburstLoop, Slave.answers, exchanges, outbound]
  | succ n ih =>
    obtain ⟨h1, h2, -⟩ := ih
    have hc : (wrburstLoop n a s).cs = .low := by rw [wrburstLoop_frame]; exact hcs
    simp only [outbound_succ, answers_concat, wrburstLoop_succ]
    refine ⟨?_, by simp [h2], fun _ => by simp [h2]⟩
    simp [h1, h2, hc, exchanges_concat]

end Sys2Proof.Machine
end

