-- ==== Sys2Proof/Laws/PerInstr.lean ====
section
/-!
SUPPORT. The family of statements made per command: its encoded word lies in its own row of rule R74's opcode map, and
carries that row's opcode (spec/30_encoding.md rules R70, R71 and R74).
-/

namespace Sys2Proof.Laws.RowShape

open Sys2Proof

/-- The command's word has its row's opcode in bits 63:56 and zeros where its row's mask asks for them. -/
def Statement (i : Instr) : Prop :=
  ∃ r, opcodeMap[rowOf i]? = some r ∧ opField (encode i) = opField r.pattern ∧
    encode i &&& r.mask = r.pattern ∧ r.needsLength = i.isBurst

theorem opField_append (op : BitVec 8) (rest : BitVec 56) : opField (op ++ rest) = op := by
  ext k hk
  simp only [opField, BitVec.getElem_extractLsb', BitVec.getLsbD_append]
  simp [BitVec.getLsbD_eq_getElem hk]

theorem and_opMask (op : BitVec 8) (rest : BitVec 56) :
    (op ++ rest) &&& (0xFF00000000000000 : Word) = op ++ (0 : BitVec 56) := by
  have h : (op ++ rest) &&& (BitVec.allOnes 8 ++ (0 : BitVec 56)) = op ++ (0 : BitVec 56) := by
    rw [BitVec.and_append, BitVec.and_allOnes]; simp
  exact h

theorem sel : Statement .sel := ⟨_, rfl, rfl, rfl, rfl⟩

theorem desel : Statement .desel := ⟨_, rfl, rfl, rfl, rfl⟩

theorem rdb : Statement .rdb := ⟨_, rfl, rfl, rfl, rfl⟩

theorem wrb (data : Byte) : Statement (.wrb data) := by
  refine ⟨_, rfl, opField_append 0x04 _, ?_, rfl⟩
  have h : (0x04 : BitVec 8) ++ ((0 : BitVec 48) ++ data) &&& BitVec.allOnes 8 ++ (BitVec.allOnes 48 ++ (0 : BitVec 8)) =
      (0x04 : BitVec 8) ++ ((0 : BitVec 48) ++ (0 : BitVec 8)) := by
    rw [BitVec.and_append, BitVec.and_append, BitVec.and_allOnes, BitVec.and_allOnes]; simp
  exact h

theorem rdburst (addr : Addr) (len : Len) : Statement (.rdburst addr len) :=
  ⟨_, rfl, opField_append 0x05 _, and_opMask 0x05 _, rfl⟩

theorem wrburst (addr : Addr) (len : Len) : Statement (.wrburst addr len) :=
  ⟨_, rfl, opField_append 0x06 _, and_opMask 0x06 _, rfl⟩

theorem crst : Statement .crst := ⟨_, rfl, rfl, rfl, rfl⟩

end Sys2Proof.Laws.RowShape
end

