-- ==== Sys2Proof/Tests/Slice0.lean ====
section
/-!
SUPPORT. The model's own tests. Expected results are the vectors of spec/95_test_vectors.md, derived there from the rules,
and words written out from the formats of spec/30_encoding.md. The last part shows, for each statement with hypotheses, a
state and operands that meet them.
-/

namespace Sys2Proof.Tests

open Sys2Proof Sys2Proof.Machine

/-! ## WellFormed: what it refuses (rule R76) -/

theorem test_rdburst_of_length_zero_is_ill_formed : (Instr.rdburst 0x20000100 0).wellFormed = false := by decide

theorem test_wrburst_of_length_zero_is_ill_formed : (Instr.wrburst 0x20000100 0).wellFormed = false := by decide

theorem test_wellFormed_commands :
    Instr.sel.wellFormed = true ∧ (Instr.wrb 0x00).wellFormed = true ∧ (Instr.rdburst 0xFFFFFFFF 1).wellFormed = true ∧
      (Instr.wrburst 0 0xFFFFFF).wellFormed = true := by decide

/-! ## Decoding: words written out from the formats (vectors V1 to V9j) -/

theorem test_decode_sel : decode true 0x0100000000000000 = .command .sel := by decide

theorem test_decode_desel : decode true 0x0200000000000000 = .command .desel := by decide

theorem test_decode_rdb : decode true 0x0300000000000000 = .command .rdb := by decide

/-- V4 to V6, and the word put together field by field: `op`, `w[55:8]`, `data`. -/
theorem test_decode_wrb :
    decode true 0x04000000000000A5 = .command (.wrb 0xA5) ∧ decode true 0x0400000000000000 = .command (.wrb 0x00) ∧
      decode true 0x04000000000000FF = .command (.wrb 0xFF) ∧
      decode true (0b00000100#8 ++ 0#48 ++ 0b10100101#8) = .command (.wrb 0xA5) := by decide

/-- V7, and the word put together field by field: `op`, `len`, `addr`. -/
theorem test_decode_rdburst :
    decode true 0x0500020520000100 = .command (.rdburst 0x20000100 517) ∧
      decode true (0b00000101#8 ++ 517#24 ++ 0x20000100#32) = .command (.rdburst 0x20000100 517) := by decide

/-- V8 and V9. -/
theorem test_decode_wrburst :
    decode true 0x0600000100000000 = .command (.wrburst 0x00000000 1) ∧
      decode true 0x06FFFFFFFFFFFFFF = .command (.wrburst 0xFFFFFFFF 16777215) := by decide

/-- V9a. -/
theorem test_decode_crst : decode true 0x0700000000000000 = .command .crst := by decide

/-- V9b to V9h and V9j. -/
theorem test_decode_reserved :
    decode true 0x0000000000000000 = .reserved .opcode ∧ decode true 0x0800000000000000 = .reserved .opcode ∧
      decode true 0xFF00000000000000 = .reserved .opcode ∧ decode true 0x0100000000000001 = .reserved .mustBeZero ∧
      decode true 0x03000000000000FF = .reserved .mustBeZero ∧ decode true 0x0400000000000100 = .reserved .mustBeZero ∧
      decode true 0x0500000020000100 = .reserved .zeroLength ∧ decode true 0x0700000000010000 = .reserved .mustBeZero := by
  decide

/-- V9i. -/
theorem test_decode_without_burst_path :
    decode false 0x0500000120000000 = .reserved .burstPathAbsent ∧
      decode true 0x0500000120000000 = .command (.rdburst 0x20000000 1) := by decide

theorem test_encode :
    encode .crst = 0x0700000000000000 ∧ encode (.wrb 0xA5) = 0x04000000000000A5 ∧
      encode (.rdburst 0x20000100 517) = 0x0500020520000100 ∧ encode (.wrburst 0x00000000 1) = 0x0600000100000000 := by
  decide

theorem test_decodeTableWord :
    decodeTableWord 64 0x0500020520000100 = some (.rdburst 0x20000100 517) ∧ decodeTableWord 64 0 = none ∧
      decodeTableWord 72 0x0100000000000000 = none := by decide

/-! ## Small states (spec/95_test_vectors.md: `ST0`, `ST1`, the end of VC1) -/

/-- `ST0` with a fixture slave, and `Alloc` = 0x2000_0000 .. 0x2000_01FF and 0xFFFF_FFFE .. 0xFFFF_FFFF. -/
def st0 (sl : Slave) (m : Memory) : State :=
  { State.reset with
    slave := sl, mem := m
    params := { burstPath := true, buffers := [⟨0x20000000, 0x200⟩, ⟨0xFFFFFFFE, 2⟩], devices := [] } }

/-- `ST1`: after one `CRST`, with holds of exactly their lower bounds. -/
def st1 (sl : Slave) (m : Memory) : State :=
  { st0 sl m with rstd := true, trace := [.rstFall, .rstRise], holdLow := 5000000, holdHigh := 5000000 }

/-- The end of VC1: `ST1` and then `SEL`. -/
def span (sl : Slave) (m : Memory) : State :=
  { st1 sl m with cs := .low, trace := [.rstFall, .rstRise, .csFall] }

/-- A value read off a next state; none where there is no next state. -/
def seen {α : Type} (f : State → α) : Host.Outcome State Fault Refusal → Option α
  | .next t => some (f t)
  | .fault _ => none
  | .refused _ => none

/-- The refusal of an outcome that is one. -/
def refusal : Host.Outcome State Fault Refusal → Option Refusal
  | .next _ => none
  | .fault _ => none
  | .refused r => some r

/-! ## One command each -/

/-- VC1. -/
theorem test_sel :
    seen (fun t => (t.cs, t.trace, t.resp)) (exec .sel (st1 .wire [])) =
      some (.low, [.rstFall, .rstRise, .csFall], some .bare) := by decide

/-- VC3 and VC5. -/
theorem test_sel_refused :
    refusal (exec .sel (span .wire [])) = some .nestedSelect ∧
      refusal (exec .sel (st0 .wire [])) = some .selectBeforeChipReset := by decide

/-- VC2. -/
theorem test_desel :
    seen (fun t => (t.cs, t.trace)) (exec .desel (span .wire [])) =
      some (.high, [.rstFall, .rstRise, .csFall, .csRise]) := by decide

/-- VC4. -/
theorem test_desel_refused : refusal (exec .desel (st1 .wire [])) = some .deselectWithoutSpan := by decide

/-- V10, and V16: the slave is asked once per command, in order. -/
theorem test_rdb :
    seen (fun t => (t.resp, t.trace.getLast?, t.txd, t.rxd, t.txf, t.rxf)) (exec .rdb (span (.const 0x51) [])) =
      some (some (.byte 0x51), some (.xchg 0xFF 0x51 .low), 0xFF, 0x51, false, false) ∧
    completions [.rdb, .rdb, .rdb] (span (.script [0xAA, 0xBB]) []) = [.byte 0xAA, .byte 0xBB, .byte 0x00] := by decide

/-- V17. -/
theorem test_rdb_refused : refusal (exec .rdb (st1 .wire [])) = some .transferOutsideSpan := by decide

/-- V13. -/
theorem test_wrb :
    seen (fun t => (t.resp, t.trace.getLast?, t.txd, t.rxd, t.txf, t.rxf)) (exec (.wrb 0xA5) (span (.const 0x00) [])) =
      some (some .bare, some (.xchg 0xA5 0x00 .low), 0xA5, 0x00, false, false) := by decide

/-- V18. -/
theorem test_wrb_refused : refusal (exec (.wrb 0x01) (st1 .wire [])) = some .transferOutsideSpan := by decide

/-- V20: memory, and the channels as the vector gives them. -/
theorem test_rdburst :
    seen (fun t => (t.mem, t.tx.raddr, t.rx.waddr, t.rx.incrW, t.rxd))
      (exec (.rdburst 0x20000000 3) (span (.script [0x11, 0x22, 0x33])
        [(0x20000000, 0xEE), (0x20000001, 0xEE), (0x20000002, 0xEE), (0x20000003, 0xEE)])) =
      some ([(0x20000000, 0x11), (0x20000001, 0x22), (0x20000002, 0x33), (0x20000003, 0xEE)], .fillSrc,
        .mem 0x20000003, true, 0x33) := by decide

/-- V27 and V29. -/
theorem test_rdburst_refused :
    refusal (exec (.rdburst 0x200001FE 4) (span .wire [])) = some .bufferNotAllocated ∧
      refusal (exec (.rdburst 0x20000000 3) (st1 .wire [])) = some .transferOutsideSpan := by decide

/-- V26: a write burst up to the last address; its left-over transmit address is `MemLoc(0)`. -/
theorem test_wrburst :
    seen (fun t => (t.trace.drop 3, t.tx.raddr, t.rx.waddr, t.scratch))
      (exec (.wrburst 0xFFFFFFFE 2) (span (.const 0x00) [(0xFFFFFFFE, 0xA1), (0xFFFFFFFF, 0xA2)])) =
      some ([.xchg 0xA1 0x00 .low, .xchg 0xA2 0x00 .low], .mem 0, .scratchSink, 0x00) := by decide

/-- V28. -/
theorem test_wrburst_refused : refusal (exec (.wrburst 0xFFFFFFFF 2) (span .wire [])) = some .bufferNotAllocated := by
  decide

/-- V30, and V32 from where a chip reset has run before. -/
theorem test_crst :
    seen (fun t => (t.rstl, t.rstd, t.cs, t.trace)) (exec .crst (st0 .wire [])) =
      some (.high, true, .high, [.rstFall, .rstRise]) ∧
    seen (fun t => (t.rstd, t.trace)) (exec .crst (st1 .wire [])) =
      some (true, [.rstFall, .rstRise, .rstFall, .rstRise]) := by decide

/-- V33. -/
theorem test_crst_refused : refusal (exec .crst (span .wire [])) = some .chipResetInsideSpan := by decide

/-! ## Small steps -/

/-- A read burst of two bytes at 0x2000_0000, accepted and not yet started; the arbiter will prefer RXCH first. -/
def burstAccepted (m : Memory) : State :=
  { accepted (.rdburst 0x20000000 2) (span (.script [0x11, 0x22]) m) with arb := [.rxch] }

/-- Run A of spec/95_test_vectors.md section 3.4. -/
def runA : List Agent := [.eng, .txch, .shift, .txch, .rxch, .shift, .rxch, .eng]

/-- Run B of spec/95_test_vectors.md section 3.4. -/
def runB : List Agent := [.eng, .txch, .shift, .rxch, .txch, .shift, .rxch, .eng]

/-- What the tables of runs A and B show after a step. -/
def columns (s : State) : Bool × Bool × Nat × Nat × Bool × Bool :=
  (s.txf, s.rxf, s.tx.count.toNat, s.rx.count.toNat, s.tx.busy, s.rx.busy)

/-- Step 3 of run A: the transmit channel is done, and two bytes are still on their way. -/
theorem test_run_A_after_three_steps :
    (runAgents (runA.take 4) (burstAccepted [])).map columns = some (true, true, 0, 2, false, true) := by decide

/-- Both runs end alike. -/
theorem test_runs_A_and_B :
    (runAgents runA (burstAccepted [])).map (fun t => (t.mem, t.trace.drop 3, t.cmdBusy)) =
      some ([(0x20000000, 0x11), (0x20000001, 0x22)], [.xchg 0xFF 0x11 .low, .xchg 0xFF 0x22 .low], false) ∧
    runAgents runB (burstAccepted []) = runAgents runA (burstAccepted []) := by decide

/-- V42: a block reset during run A keeps memory as it was and gives no completion. -/
theorem test_block_reset_inside_a_burst :
    (runMoves ((runA.take 4).map .agent ++ [.blockReset]) (burstAccepted [(0x20000000, 0xEE)])).map
      (fun t => (t.mem, t.trace, t.resp, t.cmdBusy, t.cs)) = some ([(0x20000000, 0xEE)], [], none, false, .high) := by
  decide

/-- A word placed with `withFetchWord` is what the next step runs: from reset, `CRST`; in a span, `RDB`. -/
theorem test_withFetchWord :
    seen (fun t => (t.rstd, t.trace)) (step (State.reset.withFetchWord 64 0x0700000000000000)) =
      some (true, [.rstFall, .rstRise]) ∧
    seen (fun t => (t.resp, t.inputs)) (step ((span (.const 0x51) []).withFetchWord 64 0x0300000000000000)) =
      some (some (.byte 0x51), []) ∧
    refusal (step (State.reset.withFetchWord 64 0x0100000000000000)) = some .selectBeforeChipReset := by decide

/-! ## Witnesses: for each statement with hypotheses, a state and operands that meet them -/

theorem witness_decodeOfEncode :
    (Instr.rdburst 0xFFFFFFFF 1).wellFormed = true ∧ (Instr.wrb 0xFF).wellFormed = true := by decide

theorem witness_encodeOfDecode :
    decode false 0x04000000000000FF = .command (.wrb 0xFF) ∧
      decode true 0x05FFFFFFFFFFFFFF = .command (.rdburst 0xFFFFFFFF 0xFFFFFF) := by decide

theorem witness_decoderFollowsItsRule : ∀ i, decode true 0x0800000000000000 ≠ .command i := by
  rw [show decode true 0x0800000000000000 = .reserved .opcode by decide]
  intro i h
  cases h

theorem witness_opcodeMapAgrees :
    decode true 0x06FFFFFFFFFFFFFF = .command (.wrburst 0xFFFFFFFF 0xFFFFFF) ∧
      (opcodeMap[4]?.map (·.matches 0x0500000100000000)) = some true ∧
      (opcodeMap[3]?.map (·.matches 0x04000000000000FF)) = some true := by decide

/-- One word for each clause, at both ends of its range, and one offered to be run agent by agent. -/
theorem witness_reservedWordsAreRefused :
    (st0 .wire []).cmdBusy = false ∧
    [0x00FFFFFFFFFFFFFF, 0x0800000000000000, 0xFF00000000000000].map
      (fun w => refusal (step (offerWord w (st0 .wire [])))) = List.replicate 3 (some .reservedOpcode) ∧
    [0x0100000000000001, 0x0280000000000000, 0x0300000000000001, 0x0700000000010000, 0x0400000000000100].map
      (fun w => refusal (step (offerWord w (st0 .wire [])))) = List.replicate 5 (some .reservedField) ∧
    refusal (step (offerWord 0x06000000FFFFFFFF (st0 .wire []))) = some .zeroLength ∧
    refusal (step (offerWord 0x0500000000000000
      { st0 .wire [] with params := ⟨false, [], []⟩ })) = some .burstPathAbsent ∧
    refusal (step { st0 .wire [] with inputs := [.stepwise 0x0800000000000000] }) = some .reservedOpcode ∧
    refusal (step { st0 .wire [] with inputs := [.stepwise 0x0500000020000100] }) = some .zeroLength := by decide

/-- The state after step 3 of run A. -/
def midBurst (m : Memory) : State :=
  { burstAccepted m with
    ph := 1, txd := 0xFF, txf := true, rxd := 0x11, rxf := true
    tx := { incrR := false, incrW := false, raddr := .fillSrc, waddr := .dataReg, count := 0, busy := false }
    rx := { incrR := false, incrW := true, raddr := .dataReg, waddr := .mem 0x20000000, count := 2, busy := true }
    trace := [.rstFall, .rstRise, .csFall, .xchg 0xFF 0x11 .low], slave := .script [0x22] }

theorem midBurst_is_reached : runAgents (runA.take 4) (burstAccepted []) = some (midBurst []) := by decide

theorem witness_blockReset :
    ({ midBurst [(0x20000000, 0xEE)] with inputs := [.blockReset] } : State).inputs = .blockReset :: [] ∧
      seen (fun t => (t.cmdBusy, t.mem)) (step { midBurst [(0x20000000, 0xEE)] with inputs := [.blockReset] }) =
        some (false, [(0x20000000, 0xEE)]) := by decide

theorem witness_stepRunsTheDecodedCommand :
    (span .wire []).cmdBusy = false ∧
      decode (span .wire []).params.burstPath 0x05000002200001FE = .command (.rdburst 0x200001FE 2) ∧
      contract (.rdburst 0x200001FE 2) { span .wire [] with inputs := [] } = none ∧
      decode (span .wire []).params.burstPath 0x05000003200001FE = .command (.rdburst 0x200001FE 3) ∧
      contract (.rdburst 0x200001FE 3) { span .wire [] with inputs := [] } = some .bufferNotAllocated ∧
      refusal (step { span .wire [] with inputs := [.stepwise 0x05000003200001FE] }) = some .bufferNotAllocated := by
  decide

theorem witness_hostWaits :
    (midBurst []).cmdBusy = true ∧
      seen State.inputs (step { midBurst [] with inputs := [.command 0x0200000000000000] }) =
        some [.command 0x0200000000000000] ∧
      seen State.inputs (step { midBurst [] with inputs := [.store 0 0x01] }) = some [.store 0 0x01] := by decide

/-- Both ways a step goes on, and the arbiter's choice between two enabled agents. -/
theorem witness_runningStep :
    seen State.ph (step { accepted .crst (st0 .wire []) with ph := 1, rstl := .low, arb := [.eng] }) = some 1 ∧
    (let s : State := { midBurst [] with txf := false, tx := { (midBurst []).tx with count := 1, busy := true } }
     enabled .txch s = true ∧ enabled .rxch s = true ∧
     seen (fun t => t.tx.count) (step { s with arb := [.txch] }) = some 0 ∧
     seen (fun t => t.rx.count) (step { s with arb := [.rxch] }) = some 1) := by decide

theorem witness_hostStores :
    (span .wire []).cmdBusy = false ∧ ({ span .wire [] with inputs := [.store 0xFFFFFFFF 0x5A] } : State).mem.wf ∧
      seen (hostLoad · 0xFFFFFFFF) (step { span .wire [] with inputs := [.store 0xFFFFFFFF 0x5A] }) = some 0x5A := by
  decide

/-- An idle state each command runs in, and one for each refusal. -/
theorem witness_commandRunsExactlyWhenLawful :
    (span .wire []).cmdBusy = false ∧ Lawful (.rdburst 0x200001FF 1) (span .wire []) ∧
    refusal (exec .rdb (st1 .wire [])) = some .transferOutsideSpan ∧
    refusal (exec .sel (span .wire [])) = some .nestedSelect ∧
    refusal (exec .desel (st1 .wire [])) = some .deselectWithoutSpan ∧
    refusal (exec (.rdburst 0x20000000 0) (span .wire [])) = some .zeroLength ∧
    refusal (exec (.wrburst 0x200001FF 2) (span .wire [])) = some .bufferNotAllocated ∧
    refusal (exec (.rdburst 0x20000000 2)
      { span .wire [] with params := ⟨true, [⟨0x20000000, 2⟩], [⟨0x20000001, 1⟩]⟩ }) = some .deviceBuffer ∧
    refusal (exec (.rdburst 0x20000000 1)
      { span .wire [] with params := ⟨false, [⟨0x20000000, 2⟩], []⟩ }) = some .burstPathAbsent ∧
    refusal (exec .sel (st0 .wire [])) = some .selectBeforeChipReset ∧
    refusal (exec .crst (span .wire [])) = some .chipResetInsideSpan :=
  ⟨by decide, contract_eq_none.1 (by decide), by decide, by decide, by decide, by decide, by decide, by decide, by decide,
    by decide, by decide⟩

theorem witness_noCommandInsideAnother :
    (midBurst []).cmdBusy = true ∧ refusal (exec .rdb (midBurst [])) = some .portBusy := by decide

/-- For the results of the six commands that are no burst: an idle state for each clause. -/
theorem witness_commandResults :
    (st0 .wire []).cmdBusy = false ∧ (st0 .wire []).cs = .high ∧ (st0 .wire []).rstd = false ∧
    (st1 .wire []).cmdBusy = false ∧ (st1 .wire []).cs = .high ∧ (st1 .wire []).rstd = true ∧
    (span .wire []).cmdBusy = false ∧ (span .wire []).cs = .low := by decide

theorem witness_burstResults :
    (span .wire [(0x200001FF, 0x12)]).cmdBusy = false ∧ (span .wire [(0x200001FF, 0x12)]).mem.wf ∧
    Lawful (.rdburst 0x200001FF 1) (span .wire [(0x200001FF, 0x12)]) ∧
    Lawful (.rdburst 0xFFFFFFFE 2) (span .wire [(0x200001FF, 0x12)]) ∧
    Lawful (.wrburst 0x200001F0 0x10) (span .wire [(0x200001FF, 0x12)]) ∧
    Lawful (.wrburst 0xFFFFFFFE 2) (span .wire [(0x200001FF, 0x12)]) :=
  ⟨by decide, by decide, contract_eq_none.1 (by decide), contract_eq_none.1 (by decide),
    contract_eq_none.1 (by decide), contract_eq_none.1 (by decide)⟩

/-- For the steps of the two channels: each source and each destination, at an edge of `Alloc`. -/
theorem witness_channelSteps :
    (midBurst []).tx.raddr = .fillSrc ∧ (midBurst []).rx.waddr = .mem 0x20000000 ∧
    inAlloc (midBurst []).params 0x20000000 = true ∧
    (startWrite 0x200001FF 1 (midBurst [])).tx.raddr = .mem 0x200001FF ∧
    inAlloc (startWrite 0x200001FF 1 (midBurst [])).params 0x200001FF = true ∧
    (startWrite 0x200001FF 1 (midBurst [])).rx.waddr = .scratchSink := by decide

theorem witness_burstSetUp :
    (burstAccepted []).ph = 0 ∧ (burstAccepted []).cur = some (.rdburst 0x20000000 2) ∧
    (accepted (.wrburst 0xFFFFFFFE 2) (span .wire [])).ph = 0 ∧
    (accepted (.wrburst 0xFFFFFFFE 2) (span .wire [])).cur = some (.wrburst 0xFFFFFFFE 2) := by decide

/-- With the receive channel busy and, at the end of run A, no longer busy. -/
theorem witness_burstCompletes :
    (Instr.rdburst 0x20000000 2).isBurst = true ∧ (midBurst []).cur = some (.rdburst 0x20000000 2) ∧
    (midBurst []).ph = 1 ∧ (midBurst []).rx.busy = true ∧
    (runAgents (runA.take 7) (burstAccepted [])).map (fun t => (t.cur, t.ph, t.rx.busy)) =
      some (some (.rdburst 0x20000000 2), 1, false) := by decide

theorem witness_byteCommandHasOneRun :
    (span .wire []).cmdBusy = false ∧ quiet (span .wire []) ∧ (span .wire []).cs = .low ∧
    (runAgents [.eng, .shift, .eng] (accepted (.wrb 0xA5) (span .wire []))).map State.cmdBusy = some false := by decide

/-- For the statements over every schedule of a burst: lawful start states, complete runs, and runs cut where the transmit
channel has just finished, with two bytes not yet taken (run A) and with one (run B), and where the receive channel has. -/
theorem witness_schedules :
    (span .wire []).cmdBusy = false ∧ quiet (span .wire []) ∧ Lawful (.rdburst 0x20000000 2) (span .wire []) ∧
    Lawful (.wrburst 0xFFFFFFFE 2) (span .wire []) ∧
    (runAgents runA (accepted (.wrburst 0xFFFFFFFE 2) (span .wire []))).map State.cmdBusy = some false ∧
    (runAgents runB (accepted (.rdburst 0x20000000 2) (span .wire []))).map State.cmdBusy = some false ∧
    (runAgents (runA.take 4) (accepted (.rdburst 0x20000000 2) (span .wire []))).map columns =
      some (true, true, 0, 2, false, true) ∧
    (runAgents (runB.take 5) (accepted (.rdburst 0x20000000 2) (span .wire []))).map columns =
      some (true, false, 0, 1, false, true) ∧
    (runAgents (runA.take 7) (accepted (.rdburst 0x20000000 2) (span .wire []))).map columns =
      some (false, false, 0, 0, false, false) :=
  ⟨by decide, by decide, contract_eq_none.1 (by decide), contract_eq_none.1 (by decide), by decide, by decide, by decide,
    by decide, by decide⟩

/-- A run of `CRST` in which time passes in several pieces, and a hold of exactly the lower bound. -/
theorem witness_chipResetHolds :
    (st0 .wire []).cmdBusy = false ∧ (st0 .wire []).cs = .high ∧ quiet (st0 .wire []) ∧
    (runMoves [.pass 7, .agent .eng, .pass 4999999, .pass 1, .agent .eng, .pass 5000001, .agent .eng, .pass 9]
      (accepted .crst (st0 .wire []))).map (fun t => (t.cmdBusy, t.holdLow, t.holdHigh)) =
      some (false, 5000000, 5000001) := by decide

/-- A hold one clock period short of its lower bound does not let the sequence go on (rule R141). -/
theorem test_hold_is_not_cut_short :
    runMoves [.agent .eng, .pass 4999999, .agent .eng] (accepted .crst (st0 .wire [])) = none := by decide

/-- A state between commands, after a whole span and inside a second one, that meets the invariant. -/
def secondSpan : State :=
  { span (.script []) [(0x20000000, 0x11)] with
    trace := [.rstFall, .rstRise, .csFall, .xchg 0xFF 0x11 .low, .csRise, .csFall, .xchg 0xA5 0x00 .low] }

theorem secondSpan_meets_the_invariant : BlockInv secondSpan where
  memory := by decide
  history := ⟨true, by decide, fun _ => rfl, fun _ _ => rfl⟩
  selected := fun _ => rfl
  holds := ⟨fun _ => by decide, fun h => by cases h⟩
  txBusy := by unfold BusyIffCount; decide
  rxBusy := by unfold BusyIffCount; decide
  idle := fun _ => ⟨by decide, rfl, rfl, rfl⟩
  running := fun h => by cases h

/-- A state inside a burst that meets the invariant. -/
theorem midBurst_meets_the_invariant : BlockInv (midBurst []) where
  memory := by decide
  history := ⟨true, by decide, fun _ => rfl, fun _ _ => rfl⟩
  selected := fun _ => rfl
  holds := ⟨fun _ => by decide, fun h => by cases h⟩
  txBusy := by unfold BusyIffCount; decide
  rxBusy := by unfold BusyIffCount; decide
  idle := fun h => by cases h
  running := fun _ =>
    ⟨_, rfl, contract_eq_none.1 (by decide), rfl, .inr ⟨rfl, ⟨rfl, rfl, rfl, rfl, rfl, rfl, rfl, rfl⟩, by decide, rfl⟩⟩

/-- For the statements from a state that meets the invariant: it steps, between commands and inside one; no block reset
is to come; and its history holds events of every kind. -/
theorem witness_invariant :
    BlockInv { secondSpan with inputs := [.command 0x0200000000000000] } ∧
    seen State.cs (step { secondSpan with inputs := [.command 0x0200000000000000] }) = some .high ∧
    BlockInv (midBurst []) ∧ (midBurst []).cmdBusy = true ∧ .blockReset ∉ (midBurst []).inputs ∧
    seen State.mem (step (midBurst [])) = some [(0x20000000, 0x11)] ∧
    .xchg 0xA5 0x00 .low ∈ secondSpan.trace ∧ secondSpan.rstd = true :=
  ⟨secondSpan_meets_the_invariant.of_environment _ _ _, by decide, midBurst_meets_the_invariant, by decide, by decide, by decide, by decide,
    by decide⟩

theorem witness_stepwiseRun :
    BlockInv { secondSpan with inputs := [.stepwise 0x0600000220000000] } ∧ secondSpan.cmdBusy = false ∧
    decode secondSpan.params.burstPath 0x0600000220000000 = .command (.wrburst 0x20000000 2) ∧
    Lawful (.wrburst 0x20000000 2) { secondSpan with inputs := [.stepwise 0x0600000220000000] } ∧
    Input.blockReset ∉ ([] : List Input) :=
  ⟨secondSpan_meets_the_invariant.of_environment _ _ _, by decide, by decide, contract_eq_none.1 (by decide), by decide⟩

/-- For the statements on what a command or an agent changes: next states, with CSn, RSTn, RSTD, a channel and memory
each changed by its writer. -/
theorem witness_writers :
    quiet (span .wire []) ∧ seen State.cmdBusy (exec (.rdburst 0x20000000 2) (span .wire [])) = some false ∧
    seen State.cs (act .eng (accepted .sel (st1 .wire []))) = some .low ∧
    seen State.cs (act .eng (accepted .desel (span .wire []))) = some .high ∧
    seen State.rstl (act .eng (accepted .crst (st0 .wire []))) = some .low ∧
    seen State.rstd (act .eng { accepted .crst (st0 .wire []) with ph := 2 }) = some true ∧
    (midBurst []).rstd = true ∧ seen State.rstd (step { midBurst [] with inputs := [.blockReset] }) = some false ∧
    seen (fun t => t.rx.count) (act .rxch (midBurst [])) = some 1 ∧
    seen (fun t => t.rx.count) (act .eng (burstAccepted [])) = some 2 ∧
    seen State.mem (act .rxch (midBurst [])) = some [(0x20000000, 0x11)] ∧
    seen State.mem (act .host { st0 .wire [] with inputs := [.store 0 0x01] }) = some [(0, 0x01)] ∧
    seen State.mem (exec .crst (st0 .wire [(0, 0x01)])) = some [(0, 0x01)] ∧
    seen State.params (step (midBurst [])) = some (midBurst []).params := by decide

/-- For the burst round trip and for the comparison of a burst with bytes moved one by one. -/
theorem witness_roundTrip :
    (span .wire [(0x20000020, 0x12)]).cmdBusy = false ∧ (span .wire [(0x20000020, 0x12)]).mem.wf ∧
    Lawful (.wrburst 0x20000020 2) (span .wire [(0x20000020, 0x12)]) ∧
    Lawful (.rdburst 0x20000030 2) (span .wire [(0x20000020, 0x12)]) ∧ (span .wire [(0x20000020, 0x12)]).slave = .wire :=
  ⟨by decide, by decide, contract_eq_none.1 (by decide), contract_eq_none.1 (by decide), rfl⟩

theorem witness_storingSlave :
    let s := st1 (.simMem .idle [] 0) [(0x20000000, 0x10), (0x20000001, 0x20)]
    s.cmdBusy = false ∧ s.mem.wf ∧ s.cs = .high ∧ s.rstd = true ∧ s.slave = .simMem .idle [] 0 ∧
      s.params.burstPath = true ∧ BufferAllocated s.params 0x20000000 2 ∧ BufferAllocated s.params 0x200001FE 2 :=
  ⟨by decide, by decide, by decide, by decide, rfl, by decide, bufferOk_iff.1 (by decide), bufferOk_iff.1 (by decide)⟩

/-- Two memories that differ outside the buffer, and both commands run in both. -/
theorem witness_onlyTheBufferReachesTheBus :
    memBytes [(0x20000000, 0x10), (0x20000007, 0x77)] 0x20000000 2 = memBytes [(0x20000000, 0x10)] 0x20000000 2 ∧
    (∀ m ∈ [[(0x20000000, 0x10), (0x20000007, 0x77)], [(0x20000000, 0x10)]],
      seen State.cmdBusy (exec (.rdburst 0x20000000 2) (span .wire m)) = some false ∧
      seen State.cmdBusy (exec (.wrburst 0x20000000 2) (span .wire m)) = some false) := by decide

end Sys2Proof.Tests
end

section
/-!
PROOFS, family `10_state.md`: who writes the lines to the attached chip and `RSTD` (rules R23 to R25), and block reset
(rule R43). First what a command, each agent and a step of the machine can do, said once.
-/

namespace Sys2Proof.Machine

/-! ## What a command can do -/

/-- The big step of each command (rule R9), `exec` without its precondition. -/
def bigStep : Instr → State → State
  | .sel, s => selStep s
  | .desel, s => deselStep s
  | .rdb, s => rdbStep s
  | .wrb data, s => wrbStep data s
  | .rdburst a n, s => rdburstStep a n s
  | .wrburst a n, s => wrburstStep a n s
  | .crst, s => crstStep s

/-- Every command is issued alike: its contract, then its big step. -/
theorem exec_eq_issue (i : Instr) (s : State) : exec i s = issue (contract i s) (bigStep i) s := by
  cases i <;> rfl

theorem exec_eq_next {i : Instr} {s t : State} :
    exec i s = .next t ↔ s.cmdBusy = false ∧ Lawful i s ∧ bigStep i s = t := by
  rw [exec_eq_issue, issue_eq_next, contract_eq_none]

/-! ## What each agent can do -/

/-- Acceptance has a next state exactly for a lawful command at an idle port, which is then in progress (rule R41). -/
theorem acceptDecoded_eq_next {d : Decoded} {s t : State} :
    acceptDecoded d s = .next t ↔ ∃ i, d = .command i ∧ s.cmdBusy = false ∧ Lawful i s ∧ accepted i s = t := by
  cases d with
  | command i => simp [acceptDecoded, issue_eq_next, contract_eq_none]
  | reserved r => simp [acceptDecoded]

theorem accept_eq_next {w : Word} {s t : State} :
    accept w s = .next t ↔
      ∃ i, decode s.params.burstPath w = .command i ∧ s.cmdBusy = false ∧ Lawful i s ∧ accepted i s = t :=
  acceptDecoded_eq_next

/-- The host uses up inputs, stores to memory, or has a command accepted, and changes nothing else (rules R41 and R60). -/
theorem hostAct_frame {s t : State} (h : hostAct s = .next t) :
    t = { s with
      inputs := t.inputs, mem := t.mem, cmdBusy := t.cmdBusy, cur := t.cur, ph := t.ph, resp := t.resp } := by
  unfold hostAct at h
  split at h
  case h_1 | h_2 =>
    obtain ⟨i, -, -, -, rfl⟩ := accept_eq_next.1 h
    rfl
  all_goals
    cases h
    rfl

theorem act_eng_eq_next {s t : State} :
    act .eng s = .next t ↔ ∃ i, s.cur = some i ∧ engAct i s.ph s = t := by
  simp only [act]
  cases s.cur <;> simp

/-- The transmit channel moves one byte it can read into the data register, and steps (rule R122). -/
theorem txAct_eq_next {s t : State} :
    txAct s = .next t ↔ ∃ v, locRead s.tx.raddr s = .ok v ∧ { drWrite v s with tx := s.tx.stepped } = t := by
  unfold txAct
  cases locRead s.tx.raddr s <;> simp

/-- A channel's write is a byte of allocated memory or the scratch byte (rule R37). -/
theorem locWrite_eq_ok {l : Loc} {v : Byte} {s t : State} :
    locWrite l v s = .ok t ↔
      (∃ a, l = .mem a ∧ inAlloc s.params a.toNat = true ∧ memWrite a v s = t) ∨
      (l = .scratchSink ∧ { s with scratch := v } = t) := by
  cases l with
  | mem a => cases ha : inAlloc s.params a.toNat <;> simp [locWrite, ha]
  | fillSrc | scratchSink | dataReg => simp [locWrite]

/-- The receive channel takes the byte from the data register, writes it where it can, and steps (rule R123). -/
theorem rxAct_eq_next {s t : State} :
    rxAct s = .next t ↔
      ∃ u, locWrite s.rx.waddr s.rxd (drRead s) = .ok u ∧ { u with rx := u.rx.stepped } = t := by
  unfold rxAct
  cases locWrite s.rx.waddr s.rxd (drRead s) <;> simp

/-- The receive channel changes memory, the scratch byte, `RXF` and its own registers, and nothing else. -/
theorem rxAct_frame {s t : State} (h : rxAct s = .next t) :
    t = { s with rxf := false, mem := t.mem, scratch := t.scratch, rx := s.rx.stepped } := by
  obtain ⟨u, hu, rfl⟩ := rxAct_eq_next.1 h
  obtain ⟨a, -, -, rfl⟩ | ⟨-, rfl⟩ := locWrite_eq_ok.1 hu <;> rfl

/-- No agent but ENG writes a line to the attached chip or `RSTD` (rules R23 to R25). -/
theorem act_keeps_lines {ag : Agent} {s t : State} (h : act ag s = .next t) (hag : ag ≠ .eng) :
    t.cs = s.cs ∧ t.rstl = s.rstl ∧ t.rstd = s.rstd := by
  cases ag with
  | host =>
    rw [hostAct_frame h]
    exact ⟨rfl, rfl, rfl⟩
  | eng => exact absurd rfl hag
  | shift =>
    cases h
    simp
  | txch =>
    obtain ⟨v, -, rfl⟩ := txAct_eq_next.1 h
    exact ⟨rfl, rfl, rfl⟩
  | rxch =>
    rw [rxAct_frame h]
    exact ⟨rfl, rfl, rfl⟩

/-! ## What a step of the machine can do -/

/-- Only the hold timer shows that time passes (rule R161). -/
theorem passTime_frame (d : Nat) (s : State) : passTime d s = { s with timer := (passTime d s).timer } := by
  unfold passTime
  split <;> rfl

/-- A small step is an agent's, or a hold passes to its bound. -/
theorem engineStep_cases {s t : State} (h : engineStep s = .next t) :
    (∃ ag, nextAgent s = some ag ∧ act ag (choiceTaken s) = .next t) ∨
    (nextAgent s = none ∧ holding s = true ∧ passTime (holdLeft s) (choiceTaken s) = t) := by
  unfold engineStep at h
  cases hn : nextAgent s with
  | some ag => exact .inl ⟨ag, rfl, by simpa [hn] using h⟩
  | none =>
    simp only [hn] at h
    split at h
    case isTrue hhold => exact .inr ⟨rfl, hhold, Host.Outcome.next.inj h⟩
    case isFalse => cases h

/-- The ways a step of the machine gives a next state, each with what the port held (rules R21, R41, R43, R60 and R163). -/
inductive StepsTo (s t : State) : Prop
  | blockReset (rest : List Input) (hin : s.inputs = .blockReset :: rest)
      (ht : blockReset { s with inputs := rest } = t)
  | running (l : List Input) (hbusy : s.cmdBusy = true) (hin : s.inputs = l ∨ s.inputs = .wait :: l)
      (hstep : engineStep { s with inputs := l } = .next t)
  | idle (l : List Input) (hbusy : s.cmdBusy = false) (hin : (s.inputs = l ∧ l = []) ∨ s.inputs = .wait :: l)
      (ht : { s with inputs := l } = t)
  | store (a : Addr) (v : Byte) (rest : List Input) (hbusy : s.cmdBusy = false) (hin : s.inputs = .store a v :: rest)
      (ht : hostStore a v { s with inputs := rest } = t)
  | command (w : Word) (i : Instr) (rest : List Input) (hbusy : s.cmdBusy = false)
      (hin : s.inputs = .command w :: rest) (hdec : decode s.params.burstPath w = .command i)
      (hexec : exec i { s with inputs := rest } = .next t)
  | stepwise (w : Word) (rest : List Input) (hbusy : s.cmdBusy = false) (hin : s.inputs = .stepwise w :: rest)
      (haccept : acceptDecoded (decode s.params.burstPath w) { s with inputs := rest } = .next t)

/-- A step while a command runs: a block reset strikes, or the block takes a small step (rules R163 and R170). -/
theorem stepsTo_of_step_busy {s t : State} (hbusy : s.cmdBusy = true) (h : step s = .next t) : StepsTo s t := by
  rcases hin : s.inputs with _ | ⟨_ | _ | _ | _ | _, rest⟩ <;> simp only [step, lookUp, hin, if_pos hbusy] at h
  case cons.wait => exact .running rest hbusy (.inr hin) h
  case cons.blockReset => exact .blockReset rest hin (by simpa using h)
  all_goals exact .running s.inputs hbusy (.inl rfl) h

/-- A step of an idle block: a block reset strikes, or the block takes the host's next action (rules R21, R41 and R60). -/
theorem stepsTo_of_step_idle {s t : State} (hbusy : s.cmdBusy = false) (h : step s = .next t) : StepsTo s t := by
  have hnot : ¬ s.cmdBusy = true := Bool.eq_false_iff.1 hbusy
  rcases hin : s.inputs with _ | ⟨w | w | ⟨a, v⟩ | _ | _, rest⟩ <;>
    simp only [step, lookUp, hin, if_neg hnot, Host.Outcome.next.injEq] at h
  case nil => exact .idle s.inputs hbusy (.inl ⟨rfl, hin⟩) h
  case cons.command =>
    cases hdec : decode s.params.burstPath w with
    | command i => exact .command w i rest hbusy hin hdec (by simpa [hdec] using h)
    | reserved r => simp [hdec] at h
  case cons.stepwise => exact .stepwise w rest hbusy hin h
  case cons.store => exact .store a v rest hbusy hin h
  case cons.wait => exact .idle rest hbusy (.inr hin) h
  case cons.blockReset => exact .blockReset rest hin h

/-- The step of the machine inverted. -/
theorem stepsTo_of_step {s t : State} (h : step s = .next t) : StepsTo s t := by
  cases hbusy : s.cmdBusy with
  | true => exact stepsTo_of_step_busy hbusy h
  | false => exact stepsTo_of_step_idle hbusy h

/-- A block reset strikes in every state (rule R170). -/
theorem step_blockReset {s : State} {rest : List Input} (hin : s.inputs = .blockReset :: rest) :
    step s = .next (blockReset { s with inputs := rest }) := by
  simp only [step, lookUp, hin]

/-! ## Chip-select (rule R23) -/

/-- The level of CSn a command leaves, from the one it found. -/
def csAfter : Instr → Level → Level
  | .sel, _ => .low
  | .desel, _ => .high
  | .rdb, l | .wrb _, l | .rdburst _ _, l | .wrburst _ _, l | .crst, l => l

theorem csAfter_of_ne {i : Instr} {l : Level} (h : csAfter i l ≠ l) :
    (i = .sel ∧ csAfter i l = .low) ∨ (i = .desel ∧ csAfter i l = .high) := by
  cases i with
  | sel => exact .inl ⟨rfl, rfl⟩
  | desel => exact .inr ⟨rfl, rfl⟩
  | rdb | wrb | rdburst | wrburst | crst => exact absurd rfl h

theorem rdburstStep_lines (a : Addr) (n : Len) (s : State) :
    (rdburstStep a n s).cs = s.cs ∧ (rdburstStep a n s).rstl = s.rstl ∧ (rdburstStep a n s).rstd = s.rstd := by
  rw [rdburstStep, rdburstLoop_frame]
  exact ⟨rfl, rfl, rfl⟩

theorem wrburstStep_lines (a : Addr) (n : Len) (s : State) :
    (wrburstStep a n s).cs = s.cs ∧ (wrburstStep a n s).rstl = s.rstl ∧ (wrburstStep a n s).rstd = s.rstd := by
  rw [wrburstStep, wrburstLoop_frame]
  exact ⟨rfl, rfl, rfl⟩

theorem bigStep_cs (i : Instr) (s : State) : (bigStep i s).cs = csAfter i s.cs := by
  cases i with
  | sel | desel | rdb | wrb | crst => rfl
  | rdburst a n => exact (rdburstStep_lines a n s).1
  | wrburst a n => exact (wrburstStep_lines a n s).1

/-- ENG drives CSn in the one step of `SEL` and of `DESEL`, and in no phase of any other command. -/
theorem engAct_cs (i : Instr) (ph : Nat) (s : State) : (engAct i ph s).cs = csAfter i s.cs := by
  cases i with
  | sel | desel => rfl
  | rdb | wrb | rdburst | wrburst => cases ph <;> rfl
  | crst => rcases ph with _ | _ | _ <;> rfl

/-- Settles O42: agents other than ENG leave CSn alone, and ENG and the big steps leave it at the command's level. -/
theorem onlySelectCommandsDriveChipSelect : Obligations.OnlySelectCommandsDriveChipSelect := by
  refine ⟨fun s t i h => ?_, fun s t ag h hne => ?_⟩
  · obtain ⟨-, -, rfl⟩ := exec_eq_next.1 h
    rw [bigStep_cs]
    cases i <;> rfl
  · obtain rfl : ag = .eng := by
      by_contra hag
      exact hne (act_keeps_lines h hag).1
    obtain ⟨i, hcur, rfl⟩ := act_eng_eq_next.1 h
    rw [engAct_cs] at hne ⊢
    obtain ⟨rfl, hlow⟩ | ⟨rfl, hhigh⟩ := csAfter_of_ne hne
    · exact ⟨rfl, .inl ⟨hcur, hlow⟩⟩
    · exact ⟨rfl, .inr ⟨hcur, hhigh⟩⟩

/-! ## The reset line and `RSTD` (rules R24 and R25) -/

theorem bigStep_reset_of_ne_crst {i : Instr} (hi : i ≠ .crst) (s : State) :
    (bigStep i s).rstl = s.rstl ∧ (bigStep i s).rstd = s.rstd := by
  cases i with
  | sel | desel | rdb | wrb => exact ⟨rfl, rfl⟩
  | rdburst a n => exact (rdburstStep_lines a n s).2
  | wrburst a n => exact (wrburstStep_lines a n s).2
  | crst => exact absurd rfl hi

theorem engAct_reset_of_ne_crst {i : Instr} (hi : i ≠ .crst) (ph : Nat) (s : State) :
    (engAct i ph s).rstl = s.rstl ∧ (engAct i ph s).rstd = s.rstd := by
  cases i with
  | sel | desel => exact ⟨rfl, rfl⟩
  | rdb | wrb | rdburst | wrburst => cases ph <;> exact ⟨rfl, rfl⟩
  | crst => exact absurd rfl hi

/-- `CRST` leaves `RSTD` alone until its last step, which sets it and completes the command (rules R25 and R140). -/
theorem engAct_crst_rstd (ph : Nat) (s : State) :
    (engAct .crst ph s).rstd = s.rstd ∨
      (ph ≠ 0 ∧ ph ≠ 1 ∧ (engAct .crst ph s).rstd = true ∧ (engAct .crst ph s).cmdBusy = false) := by
  rcases ph with _ | _ | ph
  · exact .inl rfl
  · exact .inl rfl
  · exact .inr ⟨by omega, by omega, rfl, rfl⟩

/-- Of the agents only ENG writes the reset line, and only inside `CRST` (rule R24). -/
theorem act_rstl_of_ne {ag : Agent} {s t : State} (h : act ag s = .next t) (hne : t.rstl ≠ s.rstl) :
    ag = .eng ∧ s.cur = some .crst := by
  obtain rfl : ag = .eng := by
    by_contra hag
    exact hne (act_keeps_lines h hag).2.1
  obtain ⟨i, hcur, rfl⟩ := act_eng_eq_next.1 h
  obtain rfl : i = .crst := by
    by_contra hi
    exact hne (engAct_reset_of_ne_crst hi s.ph s).1
  exact ⟨rfl, hcur⟩

/-- Of the agents only ENG writes `RSTD`: the last step of `CRST` sets it (rule R25). -/
theorem act_rstd_of_ne {ag : Agent} {s t : State} (h : act ag s = .next t) (hne : t.rstd ≠ s.rstd) :
    ag = .eng ∧ s.cur = some .crst ∧ s.ph ≠ 0 ∧ s.ph ≠ 1 ∧ t.rstd = true ∧ t.cmdBusy = false := by
  obtain rfl : ag = .eng := by
    by_contra hag
    exact hne (act_keeps_lines h hag).2.2
  obtain ⟨i, hcur, rfl⟩ := act_eng_eq_next.1 h
  obtain rfl : i = .crst := by
    by_contra hi
    exact hne (engAct_reset_of_ne_crst hi s.ph s).2
  exact ⟨rfl, hcur, (engAct_crst_rstd s.ph s).resolve_left hne⟩

theorem act_keeps_rstd_set {ag : Agent} {s t : State} (h : act ag s = .next t) (hset : s.rstd = true) :
    t.rstd = true := by
  by_contra hclear
  obtain ⟨-, -, -, -, hset', -⟩ := act_rstd_of_ne h (by simpa [hset] using hclear)
  exact hclear hset'

theorem exec_keeps_rstd_set {i : Instr} {s t : State} (h : exec i s = .next t) (hset : s.rstd = true) :
    t.rstd = true := by
  obtain ⟨-, -, rfl⟩ := exec_eq_next.1 h
  by_cases hi : i = .crst
  · subst hi
    rfl
  · exact (bigStep_reset_of_ne_crst hi s).2.trans hset

theorem engineStep_keeps_rstd_set {s t : State} (h : engineStep s = .next t) (hset : s.rstd = true) :
    t.rstd = true := by
  obtain ⟨ag, -, hact⟩ | ⟨-, -, rfl⟩ := engineStep_cases h
  · exact act_keeps_rstd_set hact hset
  · rw [passTime_frame]
    exact hset

/-- A step that is not a block reset leaves `RSTD` set (rule R25). -/
theorem step_keeps_rstd_set {s t : State} (h : step s = .next t) (hin : ∀ rest, s.inputs ≠ .blockReset :: rest)
    (hset : s.rstd = true) : t.rstd = true := by
  cases stepsTo_of_step h with
  | blockReset rest hreset => exact absurd hreset (hin rest)
  | running l _ _ hstep => exact engineStep_keeps_rstd_set hstep hset
  | idle l _ _ ht => exact ht ▸ hset
  | store a v rest _ _ ht => exact ht ▸ hset
  | command w i rest _ _ _ hexec => exact exec_keeps_rstd_set hexec hset
  | stepwise w rest _ _ haccept =>
    obtain ⟨i, -, -, -, rfl⟩ := acceptDecoded_eq_next.1 haccept
    exact hset

/-- Settles O43, from what the big steps, each agent and a step of the machine do to the reset line and `RSTD`. -/
theorem onlyChipResetDrivesTheResetLine : Obligations.OnlyChipResetDrivesTheResetLine := by
  refine ⟨rfl, rfl, fun s t i h => ?commands, fun s t ag h => ⟨act_rstl_of_ne h, act_rstd_of_ne h⟩,
    fun s rest hin => ⟨_, step_blockReset hin, rfl, rfl⟩, fun s t h hset hclear => ?cleared⟩
  case commands =>
    obtain ⟨-, -, rfl⟩ := exec_eq_next.1 h
    refine ⟨fun hi => bigStep_reset_of_ne_crst hi s, fun hi => ?_⟩
    subst hi
    exact ⟨rfl, rfl⟩
  case cleared =>
    by_contra hin
    have hkept := step_keeps_rstd_set h (not_exists.1 hin) hset
    simp [hclear] at hkept

/-! ## Block reset (rules R43 and R172) -/

/-- Settles O7: the next state is `blockReset`'s, whose fields the laws of `blockReset` give. -/
theorem blockResetLeavesResetValues : Obligations.BlockResetLeavesResetValues := by
  intro s rest hin
  refine ⟨_, step_blockReset hin, ?_⟩
  simp [State.reset, Channel.reset, pace, Config.channelClaimed, Config.dmaWidth, Config.fill]

end Sys2Proof.Machine
end

section
/-!
PROOFS, family `30_encoding.md`: the decoder against its rule (R73), against the opcode map (R74), and the refusal of
reserved words (R76 and R77). First `decode` said once for all seven commands: the opcode chooses the command, the check
of its fields decides, and the operands are read off the word.
-/

namespace Sys2Proof

/-! ## The decoder (rules R71, R73, R75 to R77) -/

/-- The fields of `w` are as the format of a command asks (rules R71 and R73); the command's operands do not matter. -/
def fieldsOk (bp : Bool) (w : Word) : Instr → Bool
  | .sel => zeroFieldN w == 0
  | .desel => zeroFieldN w == 0
  | .rdb => zeroFieldN w == 0
  | .wrb _ => zeroFieldB w == 0
  | .rdburst _ _ => bp && lenField w != 0
  | .wrburst _ _ => bp && lenField w != 0
  | .crst => zeroFieldN w == 0

/-- A command with the operands that `w` carries in place of its own (rule R75). -/
def readOperands (w : Word) : Instr → Instr
  | .sel => .sel
  | .desel => .desel
  | .rdb => .rdb
  | .wrb _ => .wrb (dataField w)
  | .rdburst _ _ => .rdburst (addrField w) (lenField w)
  | .wrburst _ _ => .wrburst (addrField w) (lenField w)
  | .crst => .crst

/-- What a word of a command's opcode is reserved for when its fields are not as they should be (rules R76 and R77). -/
def fieldFault (bp : Bool) : Instr → Reserved
  | .sel => .mustBeZero
  | .desel => .mustBeZero
  | .rdb => .mustBeZero
  | .wrb _ => .mustBeZero
  | .rdburst _ _ => if bp then .zeroLength else .burstPathAbsent
  | .wrburst _ _ => if bp then .zeroLength else .burstPathAbsent
  | .crst => .mustBeZero

@[simp] theorem opcodeOf_readOperands (w : Word) (i : Instr) : opcodeOf (readOperands w i) = opcodeOf i := by
  cases i <;> rfl

@[simp] theorem rowOf_readOperands (w : Word) (i : Instr) : rowOf (readOperands w i) = rowOf i := by
  cases i <;> rfl

@[simp] theorem fieldsOk_readOperands (bp : Bool) (w : Word) (i : Instr) :
    fieldsOk bp w (readOperands w i) = fieldsOk bp w i := by
  cases i <;> rfl

@[simp] theorem readOperands_readOperands (w : Word) (i : Instr) :
    readOperands w (readOperands w i) = readOperands w i := by
  cases i <;> rfl

/-- The decoder on the words of a command's opcode. -/
theorem decode_of_opcode {bp : Bool} {w : Word} {i : Instr} (hop : opField w = opcodeOf i) :
    decode bp w = if fieldsOk bp w i then .command (readOperands w i) else .reserved (fieldFault bp i) := by
  cases i with
  | sel | desel | rdb | crst => simp [decode, hop, opcodeOf, decodeN, fieldsOk, readOperands, fieldFault]
  | wrb d => simp [decode, hop, opcodeOf, decodeB, fieldsOk, readOperands, fieldFault]
  | rdburst a n | wrburst a n =>
    cases bp <;> simp [decode, hop, opcodeOf, decodeM, fieldsOk, readOperands, fieldFault]

theorem decode_of_fieldsOk {bp : Bool} {w : Word} {i : Instr} (hop : opField w = opcodeOf i)
    (hok : fieldsOk bp w i = true) : decode bp w = .command (readOperands w i) := by
  rw [decode_of_opcode hop, if_pos hok]

theorem decode_of_not_fieldsOk {bp : Bool} {w : Word} {i : Instr} (hop : opField w = opcodeOf i)
    (hbad : fieldsOk bp w i = false) : decode bp w = .reserved (fieldFault bp i) := by
  rw [decode_of_opcode hop, if_neg (Bool.eq_false_iff.1 hbad)]

/-- The decoder on the words of every other opcode (rule R76). -/
theorem decode_of_unassigned {w : Word} (h : opField w = 0x00 ∨ 0x08 ≤ (opField w).toNat) (bp : Bool) :
    decode bp w = .reserved .opcode := by
  have hne : ∀ op : BitVec 8, 0 < op.toNat → op.toNat < 8 → opField w ≠ op := by
    rintro op hpos hlt rfl
    rcases h with h | h
    · simp [h] at hpos
    · omega
  simp [decode, hne]

/-- An opcode is a command's, or it is one that rule R76 reserves. -/
theorem opcode_cases (op : BitVec 8) : (∃ i, op = opcodeOf i) ∨ op = 0x00 ∨ 0x08 ≤ op.toNat := by
  have h : op = 0x01 ∨ op = 0x02 ∨ op = 0x03 ∨ op = 0x04 ∨ op = 0x05 ∨ op = 0x06 ∨ op = 0x07 ∨
      op = 0x00 ∨ 8 ≤ op.toNat := by bv_omega
  rcases h with h | h | h | h | h | h | h | h
  · exact .inl ⟨.sel, h⟩
  · exact .inl ⟨.desel, h⟩
  · exact .inl ⟨.rdb, h⟩
  · exact .inl ⟨.wrb 0, h⟩
  · exact .inl ⟨.rdburst 0 0, h⟩
  · exact .inl ⟨.wrburst 0 0, h⟩
  · exact .inl ⟨.crst, h⟩
  · exact .inr h

/-- The decoder inverted: the opcode is the command's, the fields are as they should be, the operands are the word's. -/
theorem decode_eq_command {bp : Bool} {w : Word} {i : Instr} :
    decode bp w = .command i ↔ opField w = opcodeOf i ∧ fieldsOk bp w i = true ∧ readOperands w i = i := by
  constructor
  · intro h
    rcases opcode_cases (opField w) with ⟨j, hop⟩ | hres
    · rw [decode_of_opcode hop] at h
      split at h
      case isTrue hok =>
        cases h
        simp [hop, hok]
      case isFalse => cases h
    · rw [decode_of_unassigned hres] at h
      cases h
  · rintro ⟨hop, hok, hread⟩
    rw [decode_of_fieldsOk hop hok, hread]

theorem exists_reserved {d : Decoded} (h : ∀ i, d ≠ .command i) : ∃ r, d = .reserved r := by
  cases d with
  | command i => exact absurd rfl (h i)
  | reserved r => exact ⟨r, rfl⟩

/-- Settles O3, clause by clause from the decoder inverted. -/
theorem decoderFollowsItsRule : Obligations.DecoderFollowsItsRule := by
  intro bp w op zeros burst
  refine ⟨?_, ?_, ?_, ?_, fun d => ?_, fun a n => ?_, fun a n => ?_, exists_reserved⟩ <;>
    rw [decode_eq_command]
  case refine_1 | refine_2 | refine_3 | refine_4 =>
    simp [op, zeros, opField, opcodeOf, zeroFieldN, fieldsOk, readOperands]
  case refine_5 =>
    simp [op, opField, opcodeOf, zeroFieldB, dataField, fieldsOk, readOperands, eq_comm (a := d)]
  case refine_6 | refine_7 =>
    simp [op, burst, opField, opcodeOf, lenField, addrField, fieldsOk, readOperands, eq_comm (a := a), eq_comm (a := n)]

/-! ## The opcode map (rule R74) -/

theorem zeroFieldN_append (op : BitVec 8) (rest : BitVec 56) : zeroFieldN (op ++ rest) = rest :=
  BitVec.extractLsb'_append_eq_right

theorem opField_append_zeroFieldN (w : Word) : opField w ++ zeroFieldN w = w :=
  BitVec.extractLsb'_append_extractLsb' (w := 8) (len := 56)

theorem zeroFieldB_append_dataField (w : Word) : zeroFieldB w ++ dataField w = zeroFieldN w :=
  BitVec.extractLsb'_append_extractLsb'_eq_extractLsb' rfl

/-- A mask that keeps the opcode compares it whole, and the other bits under the mask. -/
theorem and_opcodeMask_eq_append {w : Word} {op : BitVec 8} {mask rest : BitVec 56} :
    w &&& (BitVec.allOnes 8 ++ mask) = op ++ rest ↔ opField w = op ∧ zeroFieldN w &&& mask = rest := by
  conv_lhs => rw [← opField_append_zeroFieldN w, BitVec.and_append, BitVec.and_allOnes]
  constructor
  · intro h
    exact ⟨by simpa only [Laws.RowShape.opField_append] using congrArg opField h,
      by simpa only [zeroFieldN_append] using congrArg zeroFieldN h⟩
  · rintro ⟨rfl, rfl⟩
    rfl

theorem OpcodeRow.matches_iff (r : OpcodeRow) (w : Word) :
    r.matches w = true ↔ w &&& r.mask = r.pattern ∧ (!r.needsLength || lenField w != 0) = true := by
  rw [OpcodeRow.matches, Bool.and_eq_true, beq_iff_eq]

/-- A row of format N asks for its opcode and zeros. -/
theorem matches_formatN (op : BitVec 8) (w : Word) :
    (OpcodeRow.mk 0xFFFFFFFFFFFFFFFF (op ++ 0#56) false).matches w = true ↔
      opField w = op ∧ (zeroFieldN w == 0) = true := by
  rw [OpcodeRow.matches_iff, show (0xFFFFFFFFFFFFFFFF : Word) = BitVec.allOnes 8 ++ BitVec.allOnes 56 from rfl,
    and_opcodeMask_eq_append, BitVec.and_allOnes]
  simp

/-- The row of format B asks for its opcode and zeros above the data. -/
theorem matches_formatB (op : BitVec 8) (w : Word) :
    (OpcodeRow.mk 0xFFFFFFFFFFFFFF00 (op ++ 0#56) false).matches w = true ↔
      opField w = op ∧ (zeroFieldB w == 0) = true := by
  have hzeros : zeroFieldN w &&& (BitVec.allOnes 48 ++ 0#8) = 0#48 ++ 0#8 ↔ zeroFieldB w = 0 := by
    rw [← zeroFieldB_append_dataField, BitVec.and_append, BitVec.and_allOnes, BitVec.and_zero, BitVec.append_left_inj]
    rfl
  rw [OpcodeRow.matches_iff, show (0xFFFFFFFFFFFFFF00 : Word) = BitVec.allOnes 8 ++ (BitVec.allOnes 48 ++ 0#8) from rfl,
    and_opcodeMask_eq_append, show (0#56) = 0#48 ++ 0#8 from rfl, hzeros]
  simp

/-- A row of format M asks for its opcode and a length. -/
theorem matches_formatM (op : BitVec 8) (w : Word) :
    (OpcodeRow.mk 0xFF00000000000000 (op ++ 0#56) true).matches w = true ↔
      opField w = op ∧ (true && lenField w != 0) = true := by
  rw [OpcodeRow.matches_iff, show (0xFF00000000000000 : Word) = BitVec.allOnes 8 ++ 0#56 from rfl,
    and_opcodeMask_eq_append]
  simp

/-- A command's row matches the words of its opcode whose fields are as they should be. -/
theorem row_matches_iff (i : Instr) (w : Word) :
    ∃ r, opcodeMap[rowOf i]? = some r ∧
      (r.matches w = true ↔ opField w = opcodeOf i ∧ fieldsOk true w i = true) := by
  cases i with
  | sel => exact ⟨_, rfl, matches_formatN 0x01 w⟩
  | desel => exact ⟨_, rfl, matches_formatN 0x02 w⟩
  | rdb => exact ⟨_, rfl, matches_formatN 0x03 w⟩
  | wrb d => exact ⟨_, rfl, matches_formatB 0x04 w⟩
  | rdburst a n => exact ⟨_, rfl, matches_formatM 0x05 w⟩
  | wrburst a n => exact ⟨_, rfl, matches_formatM 0x06 w⟩
  | crst => exact ⟨_, rfl, matches_formatN 0x07 w⟩

/-- Every row of the map is a command's. -/
theorem exists_rowOf_eq {k : Nat} {r : OpcodeRow} (h : opcodeMap[k]? = some r) : ∃ i, rowOf i = k := by
  obtain ⟨hk, -⟩ := List.getElem?_eq_some_iff.1 h
  change k < 7 at hk
  interval_cases k
  exacts [⟨.sel, rfl⟩, ⟨.desel, rfl⟩, ⟨.rdb, rfl⟩, ⟨.wrb 0, rfl⟩, ⟨.rdburst 0 0, rfl⟩, ⟨.wrburst 0 0, rfl⟩,
    ⟨.crst, rfl⟩]

/-- Settles O4: decoder and row ask for the same opcode and the same fields. -/
theorem opcodeMapAgreesWithDecoder : Obligations.OpcodeMapAgreesWithDecoder := by
  constructor
  · intro w i hdec
    obtain ⟨hop, hok, -⟩ := decode_eq_command.1 hdec
    obtain ⟨r, hrow, hmatch⟩ := row_matches_iff i w
    exact ⟨r, hrow, hmatch.2 ⟨hop, hok⟩⟩
  · intro w k r hrow hr
    obtain ⟨j, rfl⟩ := exists_rowOf_eq hrow
    obtain ⟨r', hrow', hmatch⟩ := row_matches_iff j w
    obtain rfl : r = r' := Option.some.inj (hrow.symm.trans hrow')
    obtain ⟨hop, hok⟩ := hmatch.1 hr
    exact ⟨readOperands w j, decode_of_fieldsOk hop hok, rowOf_readOperands w j⟩

end Sys2Proof

namespace Sys2Proof.Machine

/-! ## Refusing a reserved word (rules R76 and R77) -/

/-- An idle block refuses a reserved word by its name, in whichever way it is offered. -/
theorem step_of_reserved {s : State} {w : Word} {rest : List Input} {r : Reserved} (hidle : s.cmdBusy = false)
    (hin : s.inputs = .command w :: rest ∨ s.inputs = .stepwise w :: rest)
    (hdec : decode s.params.burstPath w = .reserved r) : step s = .refused (reservedRefusal r) := by
  rcases hin with hin | hin <;> simp [step, lookUp, hin, hidle, hdec, acceptDecoded]

/-- Settles O5: the decoder names what is reserved, and the step refuses by that name. -/
theorem reservedWordsAreRefused : Obligations.ReservedWordsAreRefused := by
  intro s w rest hidle hin op
  have hfault : ∀ i, op = opcodeOf i → fieldsOk s.params.burstPath w i = false →
      step s = .refused (reservedRefusal (fieldFault s.params.burstPath i)) := fun i hop hbad =>
    step_of_reserved hidle hin (decode_of_not_fieldsOk hop hbad)
  refine ⟨fun hop => step_of_reserved hidle hin (decode_of_unassigned hop _), fun hop hz => ?_, fun hop hz => ?_,
    fun hop hbp hlen => ?_, fun hop hbp => ?_⟩
  · have hbad : (zeroFieldN w == 0) = false := beq_false_of_ne hz
    rcases hop with hop | hop | hop | hop
    exacts [hfault .sel hop hbad, hfault .desel hop hbad, hfault .rdb hop hbad, hfault .crst hop hbad]
  · exact hfault (.wrb 0) hop (beq_false_of_ne hz)
  · have hbad : (s.params.burstPath && lenField w != 0) = false := by simp [lenField, hlen]
    rw [hbp] at hfault hbad
    rcases hop with hop | hop
    exacts [hfault (.rdburst 0 0) hop hbad, hfault (.wrburst 0 0) hop hbad]
  · rw [hbp] at hfault
    rcases hop with hop | hop
    exacts [hfault (.rdburst 0 0) hop rfl, hfault (.wrburst 0 0) hop rfl]

end Sys2Proof.Machine
end

section
/-!
PROOFS, family `40_chip_select.md`: the span discipline of every history (rule R93), and the commands `SEL` and `DESEL`
(rules R90 and R91). First what the discipline asks of each event and what it leaves, and the level of CSn a history shows.
-/

namespace Sys2Proof.Machine

/-! ## What the discipline asks of one event, and the pins after it (rules R92, R93 and R174) -/

theorem after_csFall_eq_some {p q : Pins} :
    p.after .csFall = some q ↔
      (p.cs = .high ∧ p.rst = .high ∧ p.resetSeen = true) ∧ { p with cs := .low } = q := by
  simp [Pins.after]

theorem after_csRise_eq_some {p q : Pins} :
    p.after .csRise = some q ↔ p.cs = .low ∧ { p with cs := .high } = q := by
  simp [Pins.after]

theorem after_rstFall_eq_some {p q : Pins} :
    p.after .rstFall = some q ↔ (p.cs = .high ∧ p.rst = .high) ∧ { p with rst := .low } = q := by
  simp [Pins.after]

theorem after_rstRise_eq_some {p q : Pins} :
    p.after .rstRise = some q ↔
      (p.cs = .high ∧ p.rst = .low) ∧ { p with rst := .high, resetSeen := true } = q := by
  simp [Pins.after]

theorem after_xchg_eq_some {p q : Pins} {o i : Byte} {l : Level} :
    p.after (.xchg o i l) = some q ↔ (p.cs = .low ∧ l = .low) ∧ p = q := by
  simp [Pins.after]

/-- A disciplined history cut at one of its events: it is disciplined up to there, and there allows that event. -/
theorem exists_after_of_afterAll_append_cons {p q : Pins} {es fs : List BusEvent} {e : BusEvent}
    (h : p.afterAll (es ++ e :: fs) = some q) :
    ∃ r r', p.afterAll es = some r ∧ r.after e = some r' ∧ r'.afterAll fs = some q := by
  rw [afterAll_append, Option.bind_eq_some_iff] at h
  obtain ⟨r, hr, h⟩ := h
  obtain ⟨r', he, hfs⟩ := Option.bind_eq_some_iff.1 h
  exact ⟨r, r', hr, he, hfs⟩

/-! ## The level of CSn a history shows (rule R93) -/

@[simp] theorem selectedAfter_concat_csFall (es : List BusEvent) : selectedAfter (es ++ [.csFall]) = true := by
  simp [selectedAfter]

@[simp] theorem selectedAfter_concat_csRise (es : List BusEvent) : selectedAfter (es ++ [.csRise]) = false := by
  simp [selectedAfter]

@[simp] theorem selectedAfter_concat_rstFall (es : List BusEvent) :
    selectedAfter (es ++ [.rstFall]) = selectedAfter es := by
  simp [selectedAfter]

@[simp] theorem selectedAfter_concat_rstRise (es : List BusEvent) :
    selectedAfter (es ++ [.rstRise]) = selectedAfter es := by
  simp [selectedAfter]

@[simp] theorem selectedAfter_concat_xchg (es : List BusEvent) (o i : Byte) (l : Level) :
    selectedAfter (es ++ [.xchg o i l]) = selectedAfter es := by
  simp [selectedAfter]

/-- In a disciplined history from block reset the level its events show is the level of the pin: by induction on the last
event, where the two chip-select events drive both alike and no other changes either. -/
theorem selectedAfter_eq_of_afterAll {es : List BusEvent} {q : Pins} (h : Pins.reset.afterAll es = some q) :
    selectedAfter es = decide (q.cs = .low) := by
  induction es using List.reverseRecOn generalizing q with
  | nil =>
    cases h
    rfl
  | append_singleton es e ih =>
    obtain ⟨r, r', hr, he, hq⟩ := exists_after_of_afterAll_append_cons h
    obtain rfl : r' = q := Option.some.inj hq
    have hsel := ih hr
    cases e with
    | csFall =>
      obtain ⟨-, rfl⟩ := after_csFall_eq_some.1 he
      simp
    | csRise =>
      obtain ⟨-, rfl⟩ := after_csRise_eq_some.1 he
      simp
    | rstFall =>
      obtain ⟨-, rfl⟩ := after_rstFall_eq_some.1 he
      simpa using hsel
    | rstRise =>
      obtain ⟨-, rfl⟩ := after_rstRise_eq_some.1 he
      simpa using hsel
    | xchg o i l =>
      obtain ⟨-, rfl⟩ := after_xchg_eq_some.1 he
      simpa using hsel

/-- Settles O39: before each event the history shows the pin's level, and that event was allowed at it. -/
theorem historyKeepsTheSpanDiscipline : Obligations.HistoryKeepsTheSpanDiscipline := by
  intro s hinv
  obtain ⟨seen, hhist, -, -⟩ := hinv.history
  refine ⟨by simp [selectedAfter_eq_of_afterAll hhist], fun p q e hsplit => ?_⟩
  rw [hsplit] at hhist
  obtain ⟨r, r', hr, he, -⟩ := exists_after_of_afterAll_append_cons hhist
  have hsel := selectedAfter_eq_of_afterAll hr
  cases e with
  | csFall =>
    obtain ⟨⟨hcs, -, -⟩, -⟩ := after_csFall_eq_some.1 he
    simpa [hcs] using hsel
  | csRise =>
    obtain ⟨hcs, -⟩ := after_csRise_eq_some.1 he
    simpa [hcs] using hsel
  | rstFall =>
    obtain ⟨⟨hcs, -⟩, -⟩ := after_rstFall_eq_some.1 he
    simpa [hcs] using hsel
  | rstRise =>
    obtain ⟨⟨hcs, -⟩, -⟩ := after_rstRise_eq_some.1 he
    simpa [hcs] using hsel
  | xchg o i l =>
    obtain ⟨⟨hcs, hl⟩, -⟩ := after_xchg_eq_some.1 he
    exact ⟨by simpa [hcs] using hsel, hl⟩

/-! ## The chip-select commands (rules R90 and R91) -/

/-- At an idle port a command is refused exactly by the name of its broken contract. -/
theorem exec_eq_refused_of_idle {i : Instr} {s : State} {r : Refusal} (hidle : s.cmdBusy = false) :
    exec i s = .refused r ↔ contract i s = some r := by
  simp [exec_eq_issue, issue_eq_refused, hidle]

/-- `SEL`'s big step, every field it writes. -/
theorem selStep_eq (s : State) :
    selStep s = { s with
      cs := .low, trace := s.trace ++ [.csFall], slave := s.slave.csFall
      cmdBusy := false, cur := none, ph := 0, resp := some .bare } := rfl

/-- `DESEL`'s big step, every field it writes. -/
theorem deselStep_eq (s : State) :
    deselStep s = { s with
      cs := .high, trace := s.trace ++ [.csRise], slave := s.slave.csRise
      cmdBusy := false, cur := none, ph := 0, resp := some .bare } := rfl

/-- `SEL` accepted is one enabled step of ENG, its big step: what acceptance writes, the completion overwrites. -/
theorem runAgents_eng_accepted_sel (s : State) : runAgents [.eng] (accepted .sel s) = some (selStep s) :=
  runAgents_cons_eq_some.2 ⟨_, rfl, rfl, rfl⟩

/-- `DESEL` accepted is one enabled step of ENG, its big step. -/
theorem runAgents_eng_accepted_desel (s : State) : runAgents [.eng] (accepted .desel s) = some (deselStep s) :=
  runAgents_cons_eq_some.2 ⟨_, rfl, rfl, rfl⟩

/-- Settles O16: lawful, `SEL` is its big step, at once and as ENG's one step; else its contract names the refusal. -/
theorem selectLowersChipSelect : Obligations.SelectLowersChipSelect := by
  refine ⟨rfl, fun s hidle => ?_⟩
  simp only [← selStep_eq]
  refine ⟨fun hcs hrstd => ⟨?_, runAgents_eng_accepted_sel s⟩, fun hcs => ?_, fun hcs hrstd => ?_⟩
  · exact exec_eq_next.2 ⟨hidle, ⟨hcs, hrstd⟩, rfl⟩
  · simp [exec_eq_refused_of_idle hidle, contract, selContract, hcs]
  · simp [exec_eq_refused_of_idle hidle, contract, selContract, hcs, hrstd]

/-- Settles O17: lawful, `DESEL` is its big step, at once and as ENG's one step; else its contract names the refusal. -/
theorem deselectRaisesChipSelect : Obligations.DeselectRaisesChipSelect := by
  refine ⟨rfl, fun s hidle => ?_⟩
  simp only [← deselStep_eq]
  refine ⟨fun hcs => ⟨?_, runAgents_eng_accepted_desel s⟩, fun hcs => ?_⟩
  · exact exec_eq_next.2 ⟨hidle, hcs, rfl⟩
  · simp [exec_eq_refused_of_idle hidle, contract, deselContract, hcs]

end Sys2Proof.Machine
end

section
/-!
PROOFS, family `41_byte_transfer.md`: the shifter as the only agent that exchanges a byte (rule R102), and the one
small-step run of `RDB` and `WRB` (rule R103). At every point of that run exactly one agent has an enabled step, so the
run is forced; what its three steps write is what the big step writes.
-/

namespace Sys2Proof.Machine

/-! ## The shifter (rule R102) -/

/-- From `s` to `t` no byte is exchanged: the slave is left alone or handed one line event. -/
def NoExchange (s t : State) : Prop :=
  (t.trace = s.trace ∧ t.slave = s.slave) ∨
    ∃ e : BusEvent, (∀ o i l, e ≠ .xchg o i l) ∧ t.trace = s.trace ++ [e] ∧ t.slave = s.slave.notice e

theorem NoExchange.unchanged {s t : State} (htrace : t.trace = s.trace) (hslave : t.slave = s.slave) : NoExchange s t :=
  .inl ⟨htrace, hslave⟩

theorem NoExchange.line {s t : State} (e : BusEvent) (he : ∀ o i l, e ≠ .xchg o i l)
    (htrace : t.trace = s.trace ++ [e]) (hslave : t.slave = s.slave.notice e) : NoExchange s t :=
  .inr ⟨e, he, htrace, hslave⟩

/-- ENG drives a line in `SEL`, in `DESEL` and in the first two phases of `CRST`, and leaves the bus alone elsewhere. -/
theorem engAct_noExchange (i : Instr) (ph : Nat) (s : State) : NoExchange s (engAct i ph s) := by
  cases i with
  | sel => exact .line .csFall (by simp) rfl rfl
  | desel => exact .line .csRise (by simp) rfl rfl
  | rdb | wrb | rdburst | wrburst => cases ph <;> exact .unchanged rfl rfl
  | crst =>
    rcases ph with _ | _ | ph
    · exact .line .rstFall (by simp) rfl rfl
    · exact .line .rstRise (by simp) rfl rfl
    · exact .unchanged rfl rfl

theorem act_noExchange {ag : Agent} {s t : State} (hag : ag ≠ .shift) (h : act ag s = .next t) : NoExchange s t := by
  cases ag with
  | host =>
    rw [hostAct_frame h]
    exact .unchanged rfl rfl
  | eng =>
    obtain ⟨i, -, rfl⟩ := act_eng_eq_next.1 h
    exact engAct_noExchange i s.ph s
  | shift => exact absurd rfl hag
  | txch =>
    obtain ⟨v, -, rfl⟩ := txAct_eq_next.1 h
    exact .unchanged rfl rfl
  | rxch =>
    rw [rxAct_frame h]
    exact .unchanged rfl rfl

theorem enabled_shift {s : State} : enabled .shift s = true ↔ s.txf = true ∧ s.rxf = false := by
  simp [enabled, shiftReady]

/-- Settles O23: SHIFT's step written out, and for the other agents what each can do to the bus. -/
theorem shifterExchangesOneByte : Obligations.ShifterExchangesOneByte :=
  fun _ => ⟨enabled_shift, rfl, fun _ _ => act_noExchange⟩

/-! ## Runs in which every step is forced -/

/-- In `s` agent `ag` has an enabled step, to `t`, and of the block's other agents none has. -/
structure OnlyStep (ag : Agent) (s t : State) : Prop where
  enabled : enabled ag s = true
  act : act ag s = .next t
  only : ∀ other, other ≠ .host → Machine.enabled other s = true → other = ag

/-- The schedule `l` of the block's own agents can be run from `s` and ends with no command in progress. -/
def Completes (l : List Agent) (s : State) : Prop :=
  .host ∉ l ∧ ∃ u, runAgents l s = some u ∧ u.cmdBusy = false

theorem OnlyStep.runAgents_cons {ag : Agent} {s t : State} (h : OnlyStep ag s t) (l : List Agent) :
    runAgents (ag :: l) s = runAgents l t := by
  ext u
  simp [runAgents_cons_eq_some, h.enabled, h.act]

/-- A schedule that completes a running command begins with the only agent that can step. -/
theorem OnlyStep.exists_of_completes {ag : Agent} {s t : State} (h : OnlyStep ag s t) (hbusy : s.cmdBusy = true)
    {l : List Agent} (hl : Completes l s) : ∃ m, l = ag :: m ∧ Completes m t := by
  obtain ⟨hhost, u, hrun, hdone⟩ := hl
  cases l with
  | nil =>
    obtain rfl : s = u := Option.some.inj hrun
    simp [hbusy] at hdone
  | cons first m =>
    obtain ⟨hfirst, hm⟩ := List.ne_and_not_mem_of_not_mem_cons hhost
    obtain ⟨-, hen, -, -⟩ := runAgents_cons_eq_some.1 hrun
    obtain rfl := h.only first hfirst.symm hen
    exact ⟨m, rfl, hm, u, h.runAgents_cons m ▸ hrun, hdone⟩

/-- With both channels idle, only ENG and SHIFT can have an enabled step. -/
theorem enabled_of_channels_idle {s : State} (htx : s.tx.busy = false) (hrx : s.rx.busy = false) {ag : Agent}
    (hhost : ag ≠ .host) (hen : enabled ag s = true) :
    (ag = .eng ∧ ∃ i, s.cur = some i ∧ engReady i s.ph s = true) ∨ (ag = .shift ∧ s.txf = true ∧ s.rxf = false) := by
  cases ag with
  | host => exact absurd rfl hhost
  | eng =>
    cases hcur : s.cur with
    | none => simp [enabled, hcur] at hen
    | some i => exact .inl ⟨rfl, i, rfl, by simpa [enabled, hcur] using hen⟩
  | shift => exact .inr ⟨rfl, enabled_shift.1 hen⟩
  | txch => simp [enabled, htx] at hen
  | rxch => simp [enabled, hrx] at hen

/-- ENG's step is the only one when ENG is ready, the channels are idle and SHIFT has nothing to send. -/
theorem onlyStep_eng {i : Instr} {s t : State} (hcur : s.cur = some i) (hready : engReady i s.ph s = true)
    (ht : engAct i s.ph s = t) (htx : s.tx.busy = false) (hrx : s.rx.busy = false) (htxf : s.txf = false) :
    OnlyStep .eng s t where
  enabled := by simpa [enabled, hcur] using hready
  act := act_eng_eq_next.2 ⟨i, hcur, ht⟩
  only other hhost hen := by
    obtain ⟨rfl, -⟩ | ⟨-, hfull, -⟩ := enabled_of_channels_idle htx hrx hhost hen
    · rfl
    · simp [htxf] at hfull

/-- SHIFT's step is the only one when it has a byte to send, the channels are idle and ENG waits. -/
theorem onlyStep_shift {i : Instr} {s : State} (hcur : s.cur = some i) (hwait : engReady i s.ph s = false)
    (htx : s.tx.busy = false) (hrx : s.rx.busy = false) (htxf : s.txf = true) (hrxf : s.rxf = false) :
    OnlyStep .shift s (shiftAct s) where
  enabled := enabled_shift.2 ⟨htxf, hrxf⟩
  act := rfl
  only other hhost hen := by
    obtain ⟨-, j, hj, hready⟩ | ⟨rfl, -⟩ := enabled_of_channels_idle htx hrx hhost hen
    · obtain rfl : i = j := Option.some.inj (hcur.symm.trans hj)
      simp [hwait] at hready
    · rfl

/-- In a quiet block with no command held none of the block's agents has a step: a schedule is over. -/
theorem eq_nil_of_completes {s : State} (hquiet : quiet s) (hcur : s.cur = none) {l : List Agent}
    (hl : Completes l s) : l = [] := by
  obtain ⟨htxf, -, htx, hrx, -, -⟩ := hquiet
  obtain ⟨hhost, u, hrun, -⟩ := hl
  cases l with
  | nil => rfl
  | cons first m =>
    obtain ⟨hfirst, -⟩ := List.ne_and_not_mem_of_not_mem_cons hhost
    obtain ⟨-, hen, -, -⟩ := runAgents_cons_eq_some.1 hrun
    obtain ⟨-, i, hi, -⟩ | ⟨-, hfull, -⟩ := enabled_of_channels_idle htx hrx hfirst.symm hen
    · simp [hcur] at hi
    · simp [htxf] at hfull

/-! ## The byte commands (rules R100, R101 and R103) -/

/-- A byte command, the byte it sends, and what it completes with when a byte has come back (rules R100 and R101). -/
inductive ByteCommand : Instr → Byte → (Byte → Completion) → Prop
  | rdb : ByteCommand .rdb Config.fill .byte
  | wrb (data : Byte) : ByteCommand (.wrb data) data fun _ => .bare

namespace ByteCommand

variable {i : Instr} {o : Byte} {c : Byte → Completion}

theorem lawful_iff (h : ByteCommand i o c) {s : State} : Lawful i s ↔ s.cs = .low := by
  cases h <;> rfl

theorem bigStep_eq (h : ByteCommand i o c) (s : State) :
    bigStep i s = complete (c (s.slave.exchange o).1) (transfer o s) := by
  cases h <;> rfl

theorem engReady_zero (h : ByteCommand i o c) (s : State) : engReady i 0 s = !s.txf := by
  cases h <;> rfl

theorem engReady_one (h : ByteCommand i o c) (s : State) : engReady i 1 s = s.rxf := by
  cases h <;> rfl

theorem engAct_zero (h : ByteCommand i o c) (s : State) : engAct i 0 s = { drWrite o s with ph := 1 } := by
  cases h <;> rfl

theorem engAct_one (h : ByteCommand i o c) (s : State) : engAct i 1 s = complete (c s.rxd) (drRead s) := by
  cases h <;> rfl

end ByteCommand

/-- A byte command accepted and its byte handed to the data register, ENG's first step. -/
def byteLoaded (i : Instr) (o : Byte) (s : State) : State := { drWrite o (accepted i s) with ph := 1 }

section
variable {i : Instr} {o : Byte} {c : Byte → Completion} {s : State} (h : ByteCommand i o c) (hquiet : quiet s)
include h hquiet

theorem onlyStep_load : OnlyStep .eng (accepted i s) (byteLoaded i o s) := by
  obtain ⟨htxf, -, htx, hrx, -, -⟩ := hquiet
  exact onlyStep_eng rfl (by simp [h.engReady_zero, htxf]) (h.engAct_zero _) htx hrx htxf

theorem onlyStep_exchange : OnlyStep .shift (byteLoaded i o s) (shiftAct (byteLoaded i o s)) := by
  obtain ⟨-, hrxf, htx, hrx, -, -⟩ := hquiet
  exact onlyStep_shift rfl ((h.engReady_one _).trans hrxf) htx hrx rfl hrxf

/-- ENG takes the byte that came back; what the three steps have written is what the big step writes. -/
theorem onlyStep_finish : OnlyStep .eng (shiftAct (byteLoaded i o s)) (bigStep i s) := by
  obtain ⟨-, -, htx, hrx, -, -⟩ := hquiet
  refine onlyStep_eng rfl (h.engReady_one _) ?_ htx hrx rfl
  rw [h.bigStep_eq]
  exact h.engAct_one _

theorem quiet_bigStep_byte : quiet (bigStep i s) := by
  obtain ⟨-, -, hchannels⟩ := hquiet
  rw [h.bigStep_eq]
  exact ⟨rfl, rfl, hchannels⟩

theorem runAgents_byte : runAgents [.eng, .shift, .eng] (accepted i s) = some (bigStep i s) := by
  rw [(onlyStep_load h hquiet).runAgents_cons, (onlyStep_exchange h hquiet).runAgents_cons,
    (onlyStep_finish h hquiet).runAgents_cons]
  rfl

/-- Each of the three steps is forced, and after them there is none. -/
theorem eq_of_completes_byte {l : List Agent} (hl : Completes l (accepted i s)) : l = [.eng, .shift, .eng] := by
  obtain ⟨l₁, rfl, hl₁⟩ := (onlyStep_load h hquiet).exists_of_completes rfl hl
  obtain ⟨l₂, rfl, hl₂⟩ := (onlyStep_exchange h hquiet).exists_of_completes rfl hl₁
  obtain ⟨l₃, rfl, hl₃⟩ := (onlyStep_finish h hquiet).exists_of_completes rfl hl₂
  have hcur : (bigStep i s).cur = none := by rw [h.bigStep_eq, complete_cur]
  rw [eq_nil_of_completes (quiet_bigStep_byte h hquiet) hcur hl₃]

end

/-- Settles O28: the run is forced step by step and ends in the big step's state, which is quiet. -/
theorem byteCommandHasOneRun : Obligations.ByteCommandHasOneRun := by
  intro s i hi hidle hquiet hcs
  obtain ⟨o, c, h⟩ : ∃ o c, ByteCommand i o c := by
    obtain rfl | ⟨d, rfl⟩ := hi
    · exact ⟨_, _, .rdb⟩
    · exact ⟨_, _, .wrb d⟩
  have hrun := runAgents_byte h hquiet
  have hdone : (bigStep i s).cmdBusy = false := by rw [h.bigStep_eq, complete_cmdBusy]
  refine ⟨bigStep i s, exec_eq_next.2 ⟨hidle, h.lawful_iff.2 hcs, rfl⟩, quiet_bigStep_byte h hquiet,
    fun l hhost => ⟨⟨fun hl => eq_of_completes_byte h hquiet ⟨hhost, hl⟩, ?_⟩, ?_⟩⟩
  · rintro rfl
    exact ⟨_, hrun, hdone⟩
  · rintro rfl
    exact hrun

end Sys2Proof.Machine
end

section
/-!
PROOFS, family `42_burst_transfer.md`: the steps of the two channels (rules R122 and R123), a burst's set-up and
completion (rules R114 to R120 and R124), and that every schedule of a burst ends in its big step (rule R131). For the
last, a state inside a burst is written as a function of how many steps TXCH, SHIFT and RXCH have taken: each agent's
fields are those the big step's loop has after as many bytes. Each agent's step then raises its own number by one,
whatever the order.
-/

namespace Sys2Proof.Machine

/-! ## The channel steps (rules R122 and R123) -/

theorem enabled_txch {s : State} : enabled .txch s = true ↔ s.tx.busy = true ∧ s.txf = false := by
  simp [enabled, pace, requested]

theorem enabled_rxch {s : State} : enabled .rxch s = true ↔ s.rx.busy = true ∧ s.rxf = true := by
  simp [enabled, pace, requested]

/-- TXCH's step, every field it writes, for the byte its source gives. -/
theorem act_txch_of_locRead {s : State} {v : Byte} (h : locRead s.tx.raddr s = .ok v) :
    act .txch s = .next { s with txd := v, txf := true, tx := s.tx.stepped } :=
  txAct_eq_next.2 ⟨v, h, rfl⟩

/-- RXCH's step: the destination takes the received byte, `RXF` is cleared and the channel steps. -/
theorem act_rxch_of_locWrite {s u : State} (h : locWrite s.rx.waddr s.rxd (drRead s) = .ok u) :
    act .rxch s = .next { u with rx := u.rx.stepped } :=
  rxAct_eq_next.2 ⟨u, h, rfl⟩

/-- Settles O24: the byte is what each of the two sources reads as. -/
theorem transmitChannelMovesOneByte : Obligations.TransmitChannelMovesOneByte := by
  refine fun s => ⟨enabled_txch, fun hsrc => ?_, fun a hsrc ha => ?_⟩
  · exact act_txch_of_locRead (by rw [hsrc]; rfl)
  · exact act_txch_of_locRead (by rw [hsrc]; exact if_pos ha)

/-- Settles O25: each of the two destinations takes the byte. -/
theorem receiveChannelMovesOneByte : Obligations.ReceiveChannelMovesOneByte := by
  refine fun s => ⟨enabled_rxch, fun hdst => ?_, fun a hdst ha => ?_⟩
  · exact act_rxch_of_locWrite (locWrite_eq_ok.2 (.inr ⟨hdst, rfl⟩))
  · exact act_rxch_of_locWrite (locWrite_eq_ok.2 (.inl ⟨a, hdst, ha, rfl⟩))

/-! ## The two directions of a burst -/

/-- The direction of a burst (rules R110 and R111). -/
inductive Direction where
  | read
  | write

namespace Direction

/-- The burst command of a direction (rule R74). -/
def instr : Direction → Addr → Len → Instr
  | .read => .rdburst
  | .write => .wrburst

/-- Where the byte for address `a` of the buffer comes from (rules R116 and R119). -/
def source : Direction → Addr → Loc
  | .read, _ => .fillSrc
  | .write, a => .mem a

/-- Where the byte for address `a` of the buffer goes to (rules R117 and R120). -/
def sink : Direction → Addr → Loc
  | .read, a => .mem a
  | .write, _ => .scratchSink

/-- The transmit channel loaded for `n` bytes at `a` and started (rules R115, R116 and R119). -/
def txStart (d : Direction) (a : Addr) (n : Len) : Channel where
  incrR := match d with | .read => false | .write => true
  incrW := false
  raddr := d.source a
  waddr := .dataReg
  count := n
  busy := true

/-- The receive channel loaded for `n` bytes at `a` and started (rules R115, R117 and R120). -/
def rxStart (d : Direction) (a : Addr) (n : Len) : Channel where
  incrR := false
  incrW := match d with | .read => true | .write => false
  raddr := .dataReg
  waddr := d.sink a
  count := n
  busy := true

/-- The outbound byte for address `a` of the buffer: what the source reads as. -/
def sent : Direction → State → Addr → Byte
  | .read, _, _ => Config.fill
  | .write, s, a => memRead s a

/-- The inbound byte `v` for address `a` of the buffer, stored in the sink. -/
def put : Direction → Addr → Byte → State → State
  | .read, a, v, s => memWrite a v s
  | .write, _, v, s => { s with scratch := v }

/-- The first `k` bytes of the big step's loop (rules R110 and R111). -/
def loop : Direction → Nat → Addr → State → State
  | .read => rdburstLoop
  | .write => wrburstLoop

variable {d : Direction} {a : Addr} {n : Len} {s : State}

theorem lawful (h : Lawful (d.instr a n) s) : 0 < n.toNat ∧ BufferAllocated s.params a n := by
  have hpre : n ≠ 0 ∧ BufferAllocated s.params a n := by
    cases d <;>
    · obtain ⟨-, hn, halloc, -⟩ := h
      exact ⟨hn, halloc⟩
  obtain ⟨hn, halloc⟩ := hpre
  exact ⟨Nat.pos_of_ne_zero fun hzero => hn (BitVec.eq_of_toNat_eq hzero), halloc⟩

theorem locRead_source (ha : inAlloc s.params a.toNat = true) : locRead (d.source a) s = .ok (d.sent s a) := by
  cases d with
  | read => rfl
  | write => exact if_pos ha

theorem locWrite_sink (v : Byte) (ha : inAlloc s.params a.toNat = true) :
    locWrite (d.sink a) v s = .ok (d.put a v s) := by
  cases d with
  | read => exact if_pos ha
  | write => rfl

/-! ## ENG's two steps in a burst (rules R115 and R124) -/

theorem engReady_zero : engReady (d.instr a n) 0 s = true := by
  cases d <;> rfl

theorem engAct_zero :
    engAct (d.instr a n) 0 s = { s with tx := d.txStart a n, rx := d.rxStart a n, ph := 1 } := by
  cases d <;> rfl

/-- The set-up is one step of ENG, always enabled, whatever the channels held. -/
theorem setUp (hcur : s.cur = some (d.instr a n)) (hph : s.ph = 0) :
    enabled .eng s = true ∧ act .eng s = .next { s with tx := d.txStart a n, rx := d.rxStart a n, ph := 1 } := by
  refine ⟨by simp [enabled, hcur, hph, engReady_zero], act_eng_eq_next.2 ⟨_, hcur, ?_⟩⟩
  rw [hph, engAct_zero]

theorem enabled_eng_started (hcur : s.cur = some (d.instr a n)) (hph : s.ph = 1) :
    enabled .eng s = true ↔ s.rx.busy = false := by
  cases d <;> simp [enabled, hcur, hph, instr, engReady]

theorem act_eng_started (hcur : s.cur = some (d.instr a n)) (hph : s.ph = 1) :
    act .eng s = .next (complete .bare s) := by
  refine act_eng_eq_next.2 ⟨_, hcur, ?_⟩
  rw [hph]
  cases d <;> rfl

end Direction

theorem isBurst_iff {i : Instr} : i.isBurst = true ↔ ∃ (d : Direction) (a : Addr) (n : Len), i = d.instr a n := by
  constructor
  · intro h
    cases i with
    | rdburst a n => exact ⟨.read, a, n, rfl⟩
    | wrburst a n => exact ⟨.write, a, n, rfl⟩
    | sel | desel | rdb | wrb | crst => cases h
  · rintro ⟨_ | _, a, n, rfl⟩ <;> rfl

/-- Settles O26: the set-up step, in each direction. -/
theorem burstSetUpLoadsAndStartsBothChannels : Obligations.BurstSetUpLoadsAndStartsBothChannels := by
  refine fun s a n hph => ⟨fun hcur => ?_, fun hcur => ?_⟩
  · exact Direction.setUp (d := .read) hcur hph
  · exact Direction.setUp (d := .write) hcur hph

/-- Settles O27: in either direction ENG looks at `RX.BUSY` alone. -/
theorem burstCompletesOnReceiveChannel : Obligations.BurstCompletesOnReceiveChannel := by
  intro s i hi hcur hph
  obtain ⟨d, a, n, rfl⟩ := isBurst_iff.1 hi
  exact ⟨Direction.enabled_eng_started hcur hph, Direction.act_eng_started hcur hph⟩

/-! ## The channels after `k` transfers (rules R122, R123, R126 and R127) -/

theorem len_sub_succ (n : Len) (k : Nat) : n - BitVec.ofNat 24 k - 1#24 = n - BitVec.ofNat 24 (k + 1) := by
  rw [BitVec.sub_sub, ← BitVec.ofNat_add]

/-- The count reaches 0 with the last byte and not before. -/
theorem len_sub_eq_zero {n : Len} {k : Nat} (hk : k ≤ n.toNat) : n - BitVec.ofNat 24 k = 0#24 ↔ k = n.toNat := by
  rw [BitVec.sub_eq_iff_eq_add, BitVec.zero_add, ← BitVec.toNat_inj, BitVec.toNat_ofNat,
    Nat.mod_eq_of_lt (hk.trans_lt n.isLt), eq_comm]

/-- The address of the next byte of the buffer (rule R126). -/
theorem addr_add_succ (a : Addr) (k : Nat) : a + BitVec.ofNat 32 k + 1#32 = a + BitVec.ofNat 32 (k + 1) := by
  rw [BitVec.add_assoc, ← BitVec.ofNat_add]

theorem BufferAllocated.inAlloc_add {p : Params} {a : Addr} {n : Len} (h : BufferAllocated p a n) {k : Nat}
    (hk : k < n.toNat) : inAlloc p (a + BitVec.ofNat 32 k).toNat = true := by
  rw [toNat_add_ofNat h.1 hk]
  exact h.2 k hk

namespace Direction

variable {d : Direction} {a : Addr} {n : Len} {s : State} {k : Nat}

/-- The transmit channel after `k` of `n` bytes: as started for the rest of the buffer, and busy while there is one. -/
def tx (d : Direction) (a : Addr) (n : Len) (k : Nat) : Channel :=
  { d.txStart (a + BitVec.ofNat 32 k) (n - BitVec.ofNat 24 k) with busy := decide (k < n.toNat) }

/-- The receive channel after `k` of `n` bytes. -/
def rx (d : Direction) (a : Addr) (n : Len) (k : Nat) : Channel :=
  { d.rxStart (a + BitVec.ofNat 32 k) (n - BitVec.ofNat 24 k) with busy := decide (k < n.toNat) }

theorem tx_zero (hn : 0 < n.toNat) : d.tx a n 0 = d.txStart a n := by
  simp [tx, txStart, hn]

theorem rx_zero (hn : 0 < n.toNat) : d.rx a n 0 = d.rxStart a n := by
  simp [rx, rxStart, hn]

/-- `BUSY` after one more transfer: cleared with the last one (rule R33). -/
theorem busy_succ (hk : k < n.toNat) :
    (if n - BitVec.ofNat 24 (k + 1) = 0#24 then false else decide (k < n.toNat)) = decide (k + 1 < n.toNat) := by
  simp only [len_sub_eq_zero hk, hk, decide_true]
  by_cases hlast : k + 1 = n.toNat
  · simp [hlast]
  · simp [hlast, lt_of_le_of_ne hk hlast]

theorem tx_stepped (hk : k < n.toNat) : (d.tx a n k).stepped = d.tx a n (k + 1) := by
  cases d <;> simp [tx, txStart, Channel.stepped, source, Loc.next, len_sub_succ, busy_succ hk, addr_add_succ]

theorem rx_stepped (hk : k < n.toNat) : (d.rx a n k).stepped = d.rx a n (k + 1) := by
  cases d <;> simp [rx, rxStart, Channel.stepped, sink, Loc.next, len_sub_succ, busy_succ hk, addr_add_succ]

/-! ## The big step's loop, one byte more -/

theorem loop_succ (d : Direction) (k : Nat) (a : Addr) (s : State) :
    d.loop (k + 1) a s =
      (let t := transfer (d.sent s (a + BitVec.ofNat 32 k)) (d.loop k a s)
       d.put (a + BitVec.ofNat 32 k) t.rxd t) := by
  cases d with
  | read => exact rdburstLoop_succ k a s
  | write => exact wrburstLoop_succ k a s

/-- The loop writes the data register, the history, memory, the scratch byte and the slave, and nothing else. -/
theorem loop_frame (d : Direction) (k : Nat) (a : Addr) (s : State) :
    let t := d.loop k a s
    t = { s with
      txd := t.txd, txf := t.txf, rxd := t.rxd, rxf := t.rxf, trace := t.trace, mem := t.mem, scratch := t.scratch
      slave := t.slave } := by
  cases d with
  | read =>
    have h := rdburstLoop_frame k a s
    simp only [loop] at h ⊢
    rw [h]
  | write =>
    have h := wrburstLoop_frame k a s
    simp only [loop] at h ⊢
    rw [h]

theorem loop_cs (d : Direction) (k : Nat) (a : Addr) (s : State) : (d.loop k a s).cs = s.cs := by
  rw [loop_frame]

/-- Nothing writes memory during a write burst (rule R61). -/
theorem loop_write_mem (k : Nat) (a : Addr) (s : State) : (write.loop k a s).mem = s.mem := by
  rw [loop, wrburstLoop_frame]

/-! ## A state inside a burst (rule R128) -/

/-- The started burst after `t` steps of TXCH, `x` of SHIFT and `r` of RXCH, in terms of the big step's loop: `TXD` is
that of `t` bytes; `RXD`, the history and the slave are those of `x`; memory and the scratch byte are those of `r`. -/
def during (d : Direction) (a : Addr) (n : Len) (s : State) (t x r : Nat) : State :=
  { accepted (d.instr a n) s with
    ph := 1
    txd := (d.loop t a s).txd, txf := decide (x < t), tx := d.tx a n t
    rxd := (d.loop x a s).rxd, rxf := decide (r < x), trace := (d.loop x a s).trace, slave := (d.loop x a s).slave
    mem := (d.loop r a s).mem, scratch := (d.loop r a s).scratch, rx := d.rx a n r }

/-- The order in which the bytes of a burst pass, and how far TXCH and SHIFT can be ahead (rule R128). -/
structure InOrder (n : Len) (t x r : Nat) : Prop where
  received : r ≤ x
  exchanged : x ≤ t
  sent : t ≤ n.toNat
  inTxd : t ≤ x + 1
  inRxd : x ≤ r + 1

theorem InOrder.start (n : Len) : InOrder n 0 0 0 :=
  ⟨le_rfl, le_rfl, Nat.zero_le _, Nat.zero_le _, Nat.zero_le _⟩

/-- A burst's source reads as it did at the start. -/
theorem sent_during (t x r : Nat) (b : Addr) : d.sent (d.during a n s t x r) b = d.sent s b := by
  cases d with
  | read => rfl
  | write => simp [sent, memRead, during, loop_write_mem]

/-- The set-up step leads to the started burst with no byte moved. -/
theorem engAct_zero_accepted (hquiet : quiet s) (hn : 0 < n.toNat) :
    engAct (d.instr a n) 0 (accepted (d.instr a n) s) = d.during a n s 0 0 0 := by
  obtain ⟨htxf, hrxf, -⟩ := hquiet
  rw [engAct_zero, ← tx_zero hn, ← rx_zero hn]
  cases d <;> simp [during, accepted, loop, rdburstLoop, wrburstLoop, htxf, hrxf]

section
variable (halloc : BufferAllocated s.params a n)
include halloc

theorem act_txch_during {t : Nat} (ht : t < n.toNat) (r : Nat) :
    act .txch (d.during a n s t t r) = .next (d.during a n s (t + 1) t r) := by
  have hread : locRead (d.during a n s t t r).tx.raddr (d.during a n s t t r) =
      .ok (d.sent s (a + BitVec.ofNat 32 t)) := by
    rw [← sent_during t t r]
    exact locRead_source (halloc.inAlloc_add ht)
  rw [act_txch_of_locRead hread]
  cases d <;> simp [during, tx_stepped ht, loop_succ, put]

theorem act_rxch_during (t : Nat) {r : Nat} (hr : r < n.toNat) :
    act .rxch (d.during a n s t (r + 1) r) = .next (d.during a n s t (r + 1) (r + 1)) := by
  have hwrite := locWrite_sink (d := d) (s := drRead (d.during a n s t (r + 1) r))
    (d.loop (r + 1) a s).rxd (halloc.inAlloc_add hr)
  rw [act_rxch_of_locWrite hwrite]
  cases d <;> simp [during, drRead, rx_stepped hr, loop_succ, put, memWrite]

end

theorem act_shift_during (x : Nat) :
    act .shift (d.during a n s (x + 1) x x) = .next (d.during a n s (x + 1) (x + 1) x) := by
  cases d <;> simp [act, shiftAct, exchange, emit, during, loop_succ, put, loop_cs, Slave.notice]

/-- What each of the block's agents can do inside a burst: its own number goes up by one, or the burst completes. -/
theorem act_during_cases (halloc : BufferAllocated s.params a n) {t x r : Nat} (hin : InOrder n t x r) {ag : Agent}
    (hhost : ag ≠ .host) (hen : enabled ag (d.during a n s t x r) = true) {u : State}
    (hact : act ag (d.during a n s t x r) = .next u) :
    (ag = .txch ∧ u = d.during a n s (t + 1) x r ∧ InOrder n (t + 1) x r) ∨
    (ag = .shift ∧ u = d.during a n s t (x + 1) r ∧ InOrder n t (x + 1) r) ∨
    (ag = .rxch ∧ u = d.during a n s t x (r + 1) ∧ InOrder n t x (r + 1)) ∨
    (ag = .eng ∧ u = complete .bare (d.during a n s t x r) ∧ t = n.toNat ∧ x = n.toNat ∧ r = n.toNat) := by
  obtain ⟨hrx, hxt, htn, htx, hxr⟩ := hin
  cases ag with
  | host => exact absurd rfl hhost
  | txch =>
    obtain ⟨hbusy, hempty⟩ := enabled_txch.1 hen
    have ht : t < n.toNat := of_decide_eq_true hbusy
    obtain rfl : x = t := le_antisymm hxt (not_lt.1 (of_decide_eq_false hempty))
    rw [act_txch_during halloc ht] at hact
    exact .inl ⟨rfl, (Host.Outcome.next.inj hact).symm, by omega, by omega, ht, by omega, hxr⟩
  | shift =>
    obtain ⟨hfull, hempty⟩ := enabled_shift.1 hen
    obtain rfl : t = x + 1 := le_antisymm htx (of_decide_eq_true hfull)
    obtain rfl : r = x := le_antisymm hrx (not_lt.1 (of_decide_eq_false hempty))
    rw [act_shift_during] at hact
    exact .inr (.inl ⟨rfl, (Host.Outcome.next.inj hact).symm, by omega, le_rfl, htn, by omega, le_rfl⟩)
  | rxch =>
    obtain ⟨hbusy, hfull⟩ := enabled_rxch.1 hen
    have hr : r < n.toNat := of_decide_eq_true hbusy
    obtain rfl : x = r + 1 := le_antisymm hxr (of_decide_eq_true hfull)
    rw [act_rxch_during halloc t hr] at hact
    exact .inr (.inr (.inl ⟨rfl, (Host.Outcome.next.inj hact).symm, le_rfl, hxt, htn, htx, by omega⟩))
  | eng =>
    rw [act_eng_started rfl rfl] at hact
    have hr : n.toNat ≤ r := not_lt.1 (of_decide_eq_false ((enabled_eng_started rfl rfl).1 hen))
    exact .inr (.inr (.inr ⟨rfl, (Host.Outcome.next.inj hact).symm, by omega, by omega, by omega⟩))

/-! ## Every run (rule R131) -/

/-- The big step leaves its loop's state and both channels after the last byte. -/
theorem bigStep_eq (d : Direction) (a : Addr) (n : Len) (s : State) :
    bigStep (d.instr a n) s =
      complete .bare { d.loop n.toNat a s with tx := d.tx a n n.toNat, rx := d.rx a n n.toNat } := by
  cases d <;> simp [instr, bigStep, rdburstStep, wrburstStep, loop, tx, rx, txStart, rxStart, source, sink, txAfterRead,
    rxAfterRead, txAfterWrite, rxAfterWrite, bufferEnd]

theorem loop_flags (d : Direction) {k : Nat} (hk : 0 < k) (a : Addr) (s : State) :
    (d.loop k a s).txf = false ∧ (d.loop k a s).rxf = false := by
  obtain ⟨k, rfl⟩ := Nat.exists_eq_succ_of_ne_zero hk.ne'
  rw [loop_succ]
  cases d <;> exact ⟨rfl, rfl⟩

/-- Completed with every byte moved, a burst is in the big step's state. -/
theorem complete_during (hn : 0 < n.toNat) :
    complete .bare (d.during a n s n.toNat n.toNat n.toNat) = bigStep (d.instr a n) s := by
  obtain ⟨htxf, hrxf⟩ := loop_flags d hn a s
  rw [bigStep_eq, loop_frame]
  simp [complete, during, accepted, htxf, hrxf]

theorem quiet_bigStep_burst (hn : 0 < n.toNat) : quiet (bigStep (d.instr a n) s) := by
  rw [← complete_during hn]
  simp [quiet, during, tx, rx, txStart, rxStart]

/-- However the agents' turns are ordered, a started burst that completes does so in the big step's state, three steps a
byte and one after the start. -/
theorem eq_bigStep_of_during (hn : 0 < n.toNat) (halloc : BufferAllocated s.params a n) {l : List Agent} {u : State}
    (hhost : .host ∉ l) (hdone : u.cmdBusy = false) {t x r : Nat} (hin : InOrder n t x r)
    (hrun : runAgents l (d.during a n s t x r) = some u) :
    u = bigStep (d.instr a n) s ∧ t + x + r + l.length = 3 * n.toNat + 1 := by
  induction l generalizing t x r with
  | nil =>
    obtain rfl : d.during a n s t x r = u := Option.some.inj hrun
    cases hdone
  | cons ag l ih =>
    obtain ⟨hag, hl⟩ := List.ne_and_not_mem_of_not_mem_cons hhost
    obtain ⟨v, hen, hact, hrest⟩ := runAgents_cons_eq_some.1 hrun
    rw [List.length_cons]
    obtain ⟨-, rfl, hin'⟩ | ⟨-, rfl, hin'⟩ | ⟨-, rfl, hin'⟩ | ⟨-, rfl, rfl, rfl, rfl⟩ :=
      act_during_cases halloc hin hag.symm hen hact
    case inr.inr.inr =>
      rw [complete_during hn] at hrest
      have hcur : (bigStep (d.instr a n) s).cur = none := by rw [bigStep_eq, complete_cur]
      obtain rfl := eq_nil_of_completes (quiet_bigStep_burst hn) hcur ⟨hl, u, hrest, hdone⟩
      exact ⟨(Option.some.inj hrest).symm, by simp; omega⟩
    all_goals
      obtain ⟨hu, hlen⟩ := ih hl hin' hrest
      exact ⟨hu, by omega⟩

/-- In a burst accepted in a quiet block ENG's set-up step is the only one. -/
theorem onlyStep_setUp (hquiet : quiet s) (hn : 0 < n.toNat) :
    OnlyStep .eng (accepted (d.instr a n) s) (d.during a n s 0 0 0) := by
  have hstart := engAct_zero_accepted (d := d) (a := a) hquiet hn
  obtain ⟨htxf, -, htx, hrx, -, -⟩ := hquiet
  exact onlyStep_eng rfl engReady_zero hstart htx hrx htxf

end Direction

/-- Settles O29: the set-up step is forced, and from the started burst every completing run ends in the big step. -/
theorem everyScheduleOfABurstEndsInItsBigStep : Obligations.EveryScheduleOfABurstEndsInItsBigStep := by
  intro s i a n hi hidle hquiet hlaw
  obtain ⟨d, rfl⟩ : ∃ d : Direction, i = d.instr a n := by
    obtain rfl | rfl := hi
    · exact ⟨.read, rfl⟩
    · exact ⟨.write, rfl⟩
  obtain ⟨hn, halloc⟩ := Direction.lawful hlaw
  refine ⟨bigStep (d.instr a n) s, exec_eq_next.2 ⟨hidle, hlaw, rfl⟩, Direction.quiet_bigStep_burst hn, ?_⟩
  intro l u hhost hrun hdone
  have hset := Direction.onlyStep_setUp (d := d) (a := a) hquiet hn
  obtain ⟨m, rfl, hm, -⟩ := hset.exists_of_completes rfl ⟨hhost, u, hrun, hdone⟩
  rw [hset.runAgents_cons] at hrun
  obtain ⟨hu, hlen⟩ := Direction.eq_bigStep_of_during hn halloc hm hdone (.start n) hrun
  exact ⟨hu, by rw [List.length_cons]; omega⟩

end Sys2Proof.Machine
end

section
/-!
PROOFS, encoding both ways (spec/30_encoding.md sections 2 to 4): the decoder on the word of a command, and the encoder
on a word that decodes. The fields that `decode` reads are the operands that `encode` wrote.
-/

namespace Sys2Proof

/-! ## The fields of an encoded command (rules R71 and R75) -/

theorem eq_and_eq_of_append_eq {m n : Nat} {a b : BitVec m} {c d : BitVec n} (h : a ++ c = b ++ d) : a = b ∧ c = d := by
  have hleft := congrArg (BitVec.extractLsb' n m) h
  have hright := congrArg (BitVec.extractLsb' 0 n) h
  simp only [BitVec.extractLsb'_append_eq_left, BitVec.extractLsb'_append_eq_right] at hleft hright
  exact ⟨hleft, hright⟩

theorem opField_encode (i : Instr) : opField (encode i) = opcodeOf i :=
  Laws.RowShape.opField_append (opcodeOf i) (operandBits i)

theorem zeroFieldN_encode (i : Instr) : zeroFieldN (encode i) = operandBits i :=
  zeroFieldN_append (opcodeOf i) (operandBits i)

/-- Format M: the operand bits of a word are its length and its address. -/
theorem lenField_append_addrField (w : Word) : lenField w ++ addrField w = zeroFieldN w :=
  BitVec.extractLsb'_append_extractLsb'_eq_extractLsb' rfl

theorem wrb_fields_encode (data : Byte) :
    zeroFieldB (encode (.wrb data)) = 0 ∧ dataField (encode (.wrb data)) = data :=
  eq_and_eq_of_append_eq ((zeroFieldB_append_dataField _).trans (zeroFieldN_encode (.wrb data)))

theorem burst_fields_encode {i : Instr} {addr : Addr} {len : Len} (h : operandBits i = len ++ addr) :
    lenField (encode i) = len ∧ addrField (encode i) = addr :=
  eq_and_eq_of_append_eq ((lenField_append_addrField _).trans ((zeroFieldN_encode i).trans h))

/-- A command's word carries the command's own operands. -/
theorem readOperands_encode (i : Instr) : readOperands (encode i) i = i := by
  cases i with
  | sel | desel | rdb | crst => rfl
  | wrb data => rw [readOperands, (wrb_fields_encode data).2]
  | rdburst addr len =>
    obtain ⟨hlen, haddr⟩ := burst_fields_encode (i := .rdburst addr len) rfl
    rw [readOperands, hlen, haddr]
  | wrburst addr len =>
    obtain ⟨hlen, haddr⟩ := burst_fields_encode (i := .wrburst addr len) rfl
    rw [readOperands, hlen, haddr]

/-- A command's word has the fields of its format exactly for a well-formed command, and for a burst only with the burst
path. -/
theorem fieldsOk_encode (bp : Bool) (i : Instr) :
    fieldsOk bp (encode i) i = (i.wellFormed && (!i.isBurst || bp)) := by
  cases i with
  | sel | desel | rdb | crst => rfl
  | wrb data => simp [fieldsOk, wrb_fields_encode, Instr.wellFormed, Instr.isBurst]
  | rdburst addr len =>
    obtain ⟨hlen, -⟩ := burst_fields_encode (i := .rdburst addr len) rfl
    simp [fieldsOk, hlen, Instr.wellFormed, Instr.isBurst, Bool.and_comm]
  | wrburst addr len =>
    obtain ⟨hlen, -⟩ := burst_fields_encode (i := .wrburst addr len) rfl
    simp [fieldsOk, hlen, Instr.wellFormed, Instr.isBurst, Bool.and_comm]

theorem fieldFault_of_isBurst {i : Instr} (h : i.isBurst = true) : fieldFault false i = .burstPathAbsent := by
  obtain ⟨_ | _, addr, len, rfl⟩ := Machine.isBurst_iff.1 h <;> rfl

/-- Settles O1: the word has the command's opcode, fields and operands; without the burst path a burst's fields fail. -/
theorem decodeOfEncodeIsIdentity : Obligations.DecodeOfEncodeIsIdentity := by
  intro i hwf
  have hread := readOperands_encode i
  refine ⟨?_, ?_⟩
  · rw [decode_of_fieldsOk (opField_encode i) (by simp [fieldsOk_encode, hwf]), hread]
  · cases hburst : i.isBurst with
    | false =>
      rw [decode_of_fieldsOk (opField_encode i) (by simp [fieldsOk_encode, hwf, hburst]), hread]
      simp
    | true =>
      rw [decode_of_not_fieldsOk (opField_encode i) (by simp [fieldsOk_encode, hburst]), fieldFault_of_isBurst hburst]
      simp

/-! ## The word of a decoded command (rules R71 and R73) -/

/-- A word whose fields are as a command's format asks carries that command's operand bits. -/
theorem zeroFieldN_of_fieldsOk {bp : Bool} {w : Word} {i : Instr} (hok : fieldsOk bp w i = true)
    (hread : readOperands w i = i) : zeroFieldN w = operandBits i := by
  rw [← hread] at hok ⊢
  cases i with
  | sel | desel | rdb | crst => simpa [fieldsOk, operandBits, readOperands] using hok
  | wrb data =>
    have hzero : zeroFieldB w = 0 := by simpa [fieldsOk, readOperands] using hok
    rw [← zeroFieldB_append_dataField, hzero]
    rfl
  | rdburst addr len | wrburst addr len => exact (lenField_append_addrField w).symm

/-- Settles O2: opcode and operand bits of the word are the command's, so the word is the command's own. -/
theorem encodeOfDecodeIsIdentity : Obligations.EncodeOfDecodeIsIdentity := by
  intro bp w i hdec
  obtain ⟨hop, hok, hread⟩ := decode_eq_command.1 hdec
  have hword : encode i = w := by
    rw [encode, ← hop, ← zeroFieldN_of_fieldsOk hok hread, opField_append_zeroFieldN]
  rw [← hword, fieldsOk_encode] at hok
  obtain ⟨hwf, hburst⟩ := (Bool.and_eq_true_iff).1 hok
  exact ⟨hword, hwf, fun hi => by simpa [hi] using hburst⟩

/-- Settles O6: each word, a literal, is decoded by evaluation. -/
theorem vectorWordsDecode : Obligations.VectorWordsDecode := by
  unfold Obligations.VectorWordsDecode
  decide

end Sys2Proof
end

section
/-!
PROOFS, the commands one by one: when a command has a meaning (rules R92, R150, R151 and R171), and what the big steps
of the byte commands and of the chip reset leave (rules R100, R101 and R140).
-/

namespace Sys2Proof.Machine

/-! ## When a command has a meaning (rules R92 and R151) -/

theorem exec_ne_fault (i : Instr) (s : State) (f : Fault) : exec i s ≠ .fault f := by
  rw [exec_eq_issue]
  exact issue_ne_fault f

/-- Settles O15: `issue` looks at the port before it looks at the contract. -/
theorem noCommandInsideAnother : Obligations.NoCommandInsideAnother := by
  intro s i hbusy
  rw [exec_eq_issue]
  exact issue_eq_refused.2 (.inl ⟨hbusy, rfl⟩)

/-- Settles O9: block reset leaves CSn high and `RSTD` false, which only the preconditions of `CRST` allow. -/
theorem onlyChipResetRunsAfterBlockReset : Obligations.OnlyChipResetRunsAfterBlockReset := by
  intro s i
  have hlawful : (∃ t, exec i (blockReset s) = .next t) ↔ Lawful i (blockReset s) := by
    simp [exec_eq_next, State.reset]
  rw [hlawful]
  cases i <;> simp [Lawful, State.reset]

/-- What a refusal of command `i` in state `s` says is broken (rules R90, R91, R100, R101, R110, R111 and R140). -/
def RefusalTrue (i : Instr) (s : State) : Refusal → Prop
  | .transferOutsideSpan => (i = .rdb ∨ (∃ d, i = .wrb d) ∨ i.isBurst = true) ∧ s.cs = .high
  | .nestedSelect => i = .sel ∧ s.cs = .low
  | .deselectWithoutSpan => i = .desel ∧ s.cs = .high
  | .zeroLength => i.wellFormed = false
  | .bufferNotAllocated => ∃ a n, (i = .rdburst a n ∨ i = .wrburst a n) ∧ ¬ BufferAllocated s.params a n
  | .deviceBuffer =>
    ∃ a n, (i = .rdburst a n ∨ i = .wrburst a n) ∧ ∃ k < n.toNat, onDevice s.params (a.toNat + k) = true
  | .burstPathAbsent => i.isBurst = true ∧ s.params.burstPath = false
  | .selectBeforeChipReset => i = .sel ∧ s.rstd = false
  | .chipResetInsideSpan => i = .crst ∧ s.cs = .low
  | .notModelled _ | .portBusy | .reservedOpcode | .reservedField | .noSuchAccess => False

/-- A buffer outside the contract is named for a device register only where it touches one (rules R52 and R56). -/
theorem refusalTrue_bufferRefusal {i : Instr} {a : Addr} {n : Len} {s : State}
    (hi : i = .rdburst a n ∨ i = .wrburst a n) (hbuffer : ¬ bufferOk s.params a n = true) :
    RefusalTrue i s (bufferRefusal s.params a n) := by
  unfold bufferRefusal
  split
  case isTrue hdevice => exact ⟨a, n, hi, anyOnDevice_iff.1 hdevice⟩
  case isFalse => exact ⟨a, n, hi, fun halloc => hbuffer (bufferOk_iff.2 halloc)⟩

/-- The names a burst's contract can give, in its order (rules R110, R111 and R56). -/
theorem refusalTrue_of_burstContract {i : Instr} {a : Addr} {n : Len} {s : State} {r : Refusal}
    (hi : i = .rdburst a n ∨ i = .wrburst a n) (h : burstContract a n s = some r) : RefusalTrue i s r := by
  have hburst : i.isBurst = true := by
    obtain rfl | rfl := hi <;> rfl
  unfold burstContract at h
  split_ifs at h with hcs hpath hn hbuffer <;> cases h
  · exact ⟨.inr (.inr hburst), hcs⟩
  · exact ⟨hburst, by simpa using hpath⟩
  · obtain rfl | rfl := hi <;> simp [RefusalTrue, Instr.wellFormed, hn]
  · exact refusalTrue_bufferRefusal hi hbuffer

theorem refusalTrue_of_contract {i : Instr} {s : State} {r : Refusal} (h : contract i s = some r) :
    RefusalTrue i s r := by
  cases i with
  | sel =>
    simp only [contract, selContract] at h
    split_ifs at h with hcs hrstd <;> cases h
    · exact ⟨rfl, hcs⟩
    · exact ⟨rfl, by simpa using hrstd⟩
  | desel =>
    simp only [contract, deselContract] at h
    split_ifs at h with hcs
    cases h
    exact ⟨rfl, hcs⟩
  | rdb | wrb =>
    simp only [contract, transferContract] at h
    split_ifs at h with hcs
    cases h
    simp [RefusalTrue, hcs]
  | rdburst a n => exact refusalTrue_of_burstContract (.inl rfl) h
  | wrburst a n => exact refusalTrue_of_burstContract (.inr rfl) h
  | crst =>
    simp only [contract, crstContract] at h
    split_ifs at h with hcs
    cases h
    exact ⟨rfl, hcs⟩

/-- Settles O14: the next state by `exec_eq_next`, the names by the contracts. -/
theorem commandRunsExactlyWhenLawful : Obligations.CommandRunsExactlyWhenLawful := by
  refine fun s i hidle => ⟨by simp [exec_eq_next, hidle], exec_ne_fault i s, fun r hr => ?_⟩
  have htrue := refusalTrue_of_contract ((exec_eq_refused_of_idle hidle).1 hr)
  cases r <;> exact htrue

/-! ## The results of the byte commands and of the chip reset (rules R100, R101 and R140) -/

/-- Settles O18: with CSn low the big step is one transfer of the filler; else the contract names the refusal. -/
theorem readByteReturnsInboundByte : Obligations.ReadByteReturnsInboundByte := by
  refine fun s hidle => ⟨fun hcs => exec_eq_next.2 ⟨hidle, hcs, ?_⟩, fun hcs => ?_⟩
  · rw [← hcs]
    rfl
  · simp [exec_eq_refused_of_idle hidle, contract, transferContract, hcs]

/-- Settles O19: with CSn low the big step is one transfer of the operand; else the contract names the refusal. -/
theorem writeByteSendsItsOperand : Obligations.WriteByteSendsItsOperand := by
  refine fun s d hidle => ⟨fun hcs => exec_eq_next.2 ⟨hidle, hcs, ?_⟩, fun hcs => ?_⟩
  · rw [← hcs]
    rfl
  · simp [exec_eq_refused_of_idle hidle, contract, transferContract, hcs]

/-- The reset sequence, every field it writes. -/
theorem crstWith_eq (low high : Nat) (s : State) :
    crstWith low high s = { s with
      rstl := .high, rstd := true, trace := s.trace ++ [.rstFall, .rstRise], slave := s.slave.rstFall.rstRise
      cmdBusy := false, cur := none, ph := 0, resp := some .bare, timer := 0, holdLow := low, holdHigh := high } := by
  simp [crstWith, complete, emit, Slave.notice]

theorem tRstLowMin_le_lowHold (s : State) : Config.tRstLowMin ≤ lowHold s := Nat.le_add_right _ _

theorem tRstHighMin_le_highHold (s : State) : Config.tRstHighMin ≤ highHold s := Nat.le_add_right _ _

/-- Settles O22: the big step is the reset sequence with the drawn lengths, which are above the bounds. -/
theorem chipResetPulsesTheResetLine : Obligations.ChipResetPulsesTheResetLine := by
  refine fun s hidle => ⟨fun hcs => ?_, fun hcs => ?_⟩
  · refine ⟨lowHold s, highHold s, tRstLowMin_le_lowHold s, tRstHighMin_le_highHold s,
      exec_eq_next.2 ⟨hidle, hcs, ?_⟩⟩
    rw [bigStep, crstStep, crstWith_eq]
  · simp [exec_eq_refused_of_idle hidle, contract, crstContract, hcs]

/-! ## Quiet and idle after a command (rule R42) -/

theorem bigStep_idle (i : Instr) (s : State) :
    (bigStep i s).cmdBusy = false ∧ (bigStep i s).cur = none ∧ (bigStep i s).ph = 0 := by
  cases i <;> exact ⟨rfl, rfl, rfl⟩

theorem quiet_bigStep {i : Instr} {s : State} (hquiet : quiet s) (hlaw : Lawful i s) : quiet (bigStep i s) := by
  cases i with
  | sel | desel | crst => exact hquiet
  | rdb => exact quiet_bigStep_byte .rdb hquiet
  | wrb data => exact quiet_bigStep_byte (.wrb data) hquiet
  | rdburst a n => exact Direction.quiet_bigStep_burst (d := .read) (Direction.lawful (d := .read) hlaw).1
  | wrburst a n => exact Direction.quiet_bigStep_burst (d := .write) (Direction.lawful (d := .write) hlaw).1

theorem quiet_blockReset (s : State) : quiet (blockReset s) := ⟨rfl, rfl, rfl, rfl, rfl, rfl⟩

/-- Settles O41: a command leaves a quiet block quiet, and block reset leaves the reset values. -/
theorem completionRestoresIdle : Obligations.CompletionRestoresIdle := by
  refine ⟨⟨quiet_blockReset .reset, rfl, rfl, rfl⟩,
    fun s rest hin => ⟨_, step_blockReset hin, quiet_blockReset _, rfl, rfl, rfl⟩, fun s t i hquiet h => ?_⟩
  obtain ⟨-, hlaw, rfl⟩ := exec_eq_next.1 h
  exact ⟨quiet_bigStep hquiet hlaw, bigStep_idle i s⟩

end Sys2Proof.Machine
end

section
/-!
PROOFS, one step of the machine: what the port, the arbiter, each command and each agent leave unchanged (rules R6, R36,
R40, R41, R50, R57, R61, R125, R163 and R165).
-/

namespace Sys2Proof.Machine

/-! ## The port (rules R21, R41, R60 and R165) -/

/-- Settles O8: `blockReset` keeps everything outside the block. -/
theorem blockResetGivesNoCompletion : Obligations.BlockResetGivesNoCompletion :=
  fun _ _ hin => ⟨_, step_blockReset hin, rfl, rfl, rfl, rfl, rfl⟩

theorem step_command {s : State} {w : Word} {i : Instr} {rest : List Input} (hidle : s.cmdBusy = false)
    (hdec : decode s.params.burstPath w = .command i) (hin : s.inputs = .command w :: rest) :
    step s = exec i { s with inputs := rest } := by
  simp [step, lookUp, hin, hidle, hdec]

theorem step_stepwise {s : State} {w : Word} {i : Instr} {rest : List Input} (hidle : s.cmdBusy = false)
    (hdec : decode s.params.burstPath w = .command i) (hin : s.inputs = .stepwise w :: rest) :
    step s = issue (contract i { s with inputs := rest }) (accepted i) { s with inputs := rest } := by
  simp [step, lookUp, hin, hidle, hdec, acceptDecoded]

/-- Settles O10: `exec` and acceptance ask for the same contract. -/
theorem stepRunsTheDecodedCommand : Obligations.StepRunsTheDecodedCommand := by
  refine fun s w i rest hidle hdec => ⟨step_command hidle hdec, fun hin hok => ?_, fun hin r hbroken => ⟨?_, ?_⟩⟩
  · rw [step_stepwise hidle hdec hin]
    exact issue_eq_next.2 ⟨hidle, hok, rfl⟩
  · rw [step_stepwise hidle hdec hin]
    exact issue_eq_refused.2 (.inr ⟨hidle, hbroken⟩)
  · exact (exec_eq_refused_of_idle (s := { s with inputs := rest }) hidle).2 hbroken

/-- Settles O13: a store changes one byte of a canonical memory. -/
theorem hostStoresBetweenCommands : Obligations.HostStoresBetweenCommands := by
  refine fun s hidle => ⟨fun hin => by simp [step, lookUp, hin, hidle], fun a v rest hin hwf => ?_⟩
  refine ⟨hostStore a v { s with inputs := rest }, by simp [step, lookUp, hin, hidle], rfl,
    Memory.read_write_same hwf _ _, fun b hb => Memory.read_write_other hwf ?_ _⟩
  exact fun heq => hb (BitVec.eq_of_toNat_eq heq)

/-! ## The arbiter (rule R125) -/

theorem enabled_host_of_busy {s : State} (hbusy : s.cmdBusy = true) : enabled .host s = false := by
  rcases hin : s.inputs with _ | ⟨_ | _ | _ | _ | _, _⟩ <;> simp [enabled, hostReady, hin, hbusy]

@[simp] theorem enabled_choiceTaken (ag : Agent) (s : State) : enabled ag (choiceTaken s) = enabled ag s := by
  cases ag <;> rfl

/-- While a command runs the arbiter names an enabled agent of the block. -/
theorem enabled_of_nextAgent {s : State} (hbusy : s.cmdBusy = true) {ag : Agent} (h : nextAgent s = some ag) :
    ag ≠ .host ∧ enabled ag s = true := by
  have hen : enabled ag s = true := List.find?_some (p := (enabled · s)) h
  refine ⟨fun hhost => ?_, hen⟩
  rw [hhost, enabled_host_of_busy hbusy] at hen
  cases hen

/-- The arbiter names no agent only where none of the block's agents has an enabled step. -/
theorem not_enabled_of_nextAgent {s : State} (h : nextAgent s = none) {ag : Agent} (hag : ag ≠ .host) :
    enabled ag s = false := by
  have hnone := List.find?_eq_none.1 h ag (by cases ag <;> simp at hag ⊢)
  exact Bool.eq_false_iff.2 hnone

theorem nextAgent_of_arb {s : State} {ag : Agent} {rest : List Agent} (harb : s.arb = ag :: rest)
    (hen : enabled ag s = true) : nextAgent s = some ag := by
  simp [nextAgent, preferred, harb, hen]

theorem passTime_of_holding {s : State} (h : holding s = true) (d : Nat) :
    passTime d s = { s with timer := s.timer + d } := if_pos h

/-- What is left of a hold takes the timer to the hold's lower bound (rule R141). -/
theorem bound_le_holdLeft (s : State) :
    (if s.ph = 1 then Config.tRstLowMin else Config.tRstHighMin) ≤ s.timer + holdLeft s := by
  unfold holdLeft
  split <;> omega

/-- With nothing but a word or a store offered, a step of a busy block is a small step. -/
theorem engineStep_of_step {s t : State} (hbusy : s.cmdBusy = true) (hwait : ∀ rest, s.inputs ≠ .wait :: rest)
    (hreset : ∀ rest, s.inputs ≠ .blockReset :: rest) (h : step s = .next t) : engineStep s = .next t := by
  cases stepsTo_of_step_busy hbusy h with
  | blockReset rest hin => exact absurd hin (hreset rest)
  | running l _ hin hstep =>
    obtain rfl | hin := hin
    · exact hstep
    · exact absurd hin (hwait l)
  | idle | store | command | stepwise => simp_all

/-- Settles O12: the agent is the arbiter's; where there is none, the hold passes. -/
theorem runningStepIsOneAgentsStep : Obligations.RunningStepIsOneAgentsStep := by
  intro s t hbusy hwait hreset h
  have hstep := engineStep_of_step hbusy hwait hreset h
  refine ⟨?_, fun ag rest harb hen => ?_⟩
  · obtain ⟨ag, hnext, hact⟩ | ⟨hnone, hhold, rfl⟩ := engineStep_cases hstep
    · obtain ⟨hag, hen⟩ := enabled_of_nextAgent hbusy hnext
      exact .inl ⟨ag, hag, hen, hact⟩
    · have hbound := bound_le_holdLeft s
      rw [passTime_of_holding (s := choiceTaken s) hhold]
      exact .inr ⟨hhold, fun ag => not_enabled_of_nextAgent hnone, rfl, fun hph => by simpa [hph] using hbound,
        fun hph => by simpa [hph] using hbound⟩
  · simpa [engineStep, nextAgent_of_arb harb hen] using hstep

/-! ## What every step leaves unchanged (rules R6, R40, R41 and R77) -/

/-- From `s` to `t` the history only grows and the parameters stay (rules R6 and R40). -/
def Grows (s t : State) : Prop := s.trace <+: t.trace ∧ t.params = s.params

theorem Grows.of_eq {s t : State} (htrace : t.trace = s.trace) (hparams : t.params = s.params) : Grows s t :=
  ⟨htrace ▸ List.prefix_rfl, hparams⟩

theorem Grows.of_append {s t : State} (es : List BusEvent) (htrace : t.trace = s.trace ++ es)
    (hparams : t.params = s.params) : Grows s t :=
  ⟨⟨es, htrace.symm⟩, hparams⟩

theorem loop_grows (d : Direction) (k : Nat) (a : Addr) (s : State) : Grows s (d.loop k a s) := by
  induction k with
  | zero => cases d <;> exact .of_eq rfl rfl
  | succ k ih =>
    obtain ⟨htrace, hparams⟩ := ih
    rw [Direction.loop_succ]
    cases d <;> exact ⟨htrace.trans (List.prefix_append _ _), hparams⟩

theorem bigStep_grows (i : Instr) (s : State) : Grows s (bigStep i s) := by
  cases i with
  | sel => exact .of_append [.csFall] rfl rfl
  | desel => exact .of_append [.csRise] rfl rfl
  | rdb | wrb => exact .of_append [_] rfl rfl
  | rdburst a n => exact loop_grows .read n.toNat a s
  | wrburst a n => exact loop_grows .write n.toNat a s
  | crst => exact .of_append [.rstFall, .rstRise] (by simp [bigStep, crstStep, crstWith_eq]) rfl

/-- ENG leaves memory and everything outside the block alone, in every phase of every command. -/
theorem engAct_outside (i : Instr) (ph : Nat) (s : State) :
    (engAct i ph s).mem = s.mem ∧ (engAct i ph s).params = s.params ∧ (engAct i ph s).inputs = s.inputs := by
  cases i with
  | sel | desel => exact ⟨rfl, rfl, rfl⟩
  | rdb | wrb | rdburst | wrburst => cases ph <;> exact ⟨rfl, rfl, rfl⟩
  | crst => rcases ph with _ | _ | _ <;> exact ⟨rfl, rfl, rfl⟩

theorem act_params {ag : Agent} {s t : State} (h : act ag s = .next t) : t.params = s.params := by
  cases ag with
  | host => rw [hostAct_frame h]
  | eng =>
    obtain ⟨i, -, rfl⟩ := act_eng_eq_next.1 h
    obtain ⟨-, hparams, -⟩ := engAct_outside i s.ph s
    exact hparams
  | shift =>
    cases h
    rfl
  | txch =>
    obtain ⟨v, -, rfl⟩ := txAct_eq_next.1 h
    rfl
  | rxch => rw [rxAct_frame h]

theorem act_grows {ag : Agent} {s t : State} (h : act ag s = .next t) : Grows s t := by
  refine ⟨?_, act_params h⟩
  by_cases hag : ag = .shift
  · subst hag
    cases h
    exact List.prefix_append _ _
  · obtain ⟨htrace, -⟩ | ⟨e, -, htrace, -⟩ := act_noExchange hag h <;> rw [htrace]
    exact List.prefix_append _ _

theorem engineStep_grows {s t : State} (h : engineStep s = .next t) : Grows s t := by
  obtain ⟨ag, -, hact⟩ | ⟨-, -, rfl⟩ := engineStep_cases h
  · exact show Grows (choiceTaken s) t from act_grows hact
  · rw [passTime_frame]
    exact .of_eq rfl rfl

/-- Every step but a block reset lets the history grow and keeps the parameters. -/
theorem step_grows {s t : State} (hreset : ∀ rest, s.inputs ≠ .blockReset :: rest) (h : step s = .next t) :
    Grows s t := by
  cases stepsTo_of_step h with
  | blockReset rest hin => exact absurd hin (hreset rest)
  | running l _ _ hstep => exact show Grows { s with inputs := l } t from engineStep_grows hstep
  | idle l _ _ ht | store a v l _ _ ht => exact ht ▸ .of_eq rfl rfl
  | command w i rest _ _ _ hexec =>
    obtain ⟨-, -, rfl⟩ := exec_eq_next.1 hexec
    exact bigStep_grows i { s with inputs := rest }
  | stepwise w rest _ _ haccept =>
    obtain ⟨i, -, -, -, rfl⟩ := acceptDecoded_eq_next.1 haccept
    exact .of_eq rfl rfl

/-- Settles O46: a block reset keeps the parameters too. -/
theorem parametersAreFixed : Obligations.ParametersAreFixed := by
  intro s t h
  by_cases hreset : ∃ rest, s.inputs = .blockReset :: rest
  · obtain ⟨rest, hin⟩ := hreset
    rw [step_blockReset hin] at h
    cases h
    rfl
  · exact (step_grows (not_exists.1 hreset) h).2

/-- Settles O47. -/
theorem historyOnlyGrows : Obligations.HistoryOnlyGrows := by
  intro s t hreset h
  obtain ⟨es, hes⟩ := (step_grows hreset h).1
  exact ⟨es, hes.symm⟩

/-! ## The host waits (rules R41 and R163) -/

theorem act_inputs {ag : Agent} {s t : State} (hag : ag ≠ .host) (h : act ag s = .next t) : t.inputs = s.inputs := by
  cases ag with
  | host => exact absurd rfl hag
  | eng =>
    obtain ⟨i, -, rfl⟩ := act_eng_eq_next.1 h
    obtain ⟨-, -, hinputs⟩ := engAct_outside i s.ph s
    exact hinputs
  | shift =>
    cases h
    rfl
  | txch =>
    obtain ⟨v, -, rfl⟩ := txAct_eq_next.1 h
    rfl
  | rxch => rw [rxAct_frame h]

theorem engineStep_inputs {s t : State} (hbusy : s.cmdBusy = true) (h : engineStep s = .next t) :
    t.inputs = s.inputs := by
  obtain ⟨ag, hnext, hact⟩ | ⟨-, -, rfl⟩ := engineStep_cases h
  · exact (act_inputs (enabled_of_nextAgent hbusy hnext).1 hact).trans (choiceTaken_inputs s)
  · rw [passTime_frame]
    rfl

/-- Settles O11: the small step of a busy block takes no input. -/
theorem hostWaitsWhileCommandRuns : Obligations.HostWaitsWhileCommandRuns :=
  fun _ _ hbusy hwait hreset h => engineStep_inputs hbusy (engineStep_of_step hbusy hwait hreset h)

/-! ## The writers of the channels and of memory (rules R36, R50, R57 and R61) -/

/-- ENG leaves both channels alone but in the set-up step of a burst (rule R36). -/
theorem engAct_channels (i : Instr) (ph : Nat) (s : State) :
    ((engAct i ph s).tx = s.tx ∧ (engAct i ph s).rx = s.rx) ∨ (ph = 0 ∧ i.isBurst = true) := by
  cases i with
  | sel | desel => exact .inl ⟨rfl, rfl⟩
  | rdb | wrb => cases ph <;> exact .inl ⟨rfl, rfl⟩
  | rdburst | wrburst =>
    cases ph with
    | zero => exact .inr ⟨rfl, rfl⟩
    | succ => exact .inl ⟨rfl, rfl⟩
  | crst => rcases ph with _ | _ | _ <;> exact .inl ⟨rfl, rfl⟩

/-- Settles O44: each agent's step, and for ENG its set-up step. -/
theorem channelRegistersHaveOneWriter : Obligations.ChannelRegistersHaveOneWriter := by
  intro s t ag h
  cases ag with
  | host =>
    rw [hostAct_frame h]
    exact ⟨fun hne => absurd rfl hne, fun hne => absurd rfl hne⟩
  | eng =>
    obtain ⟨i, hcur, rfl⟩ := act_eng_eq_next.1 h
    obtain ⟨htx, hrx⟩ | ⟨hph, hi⟩ := engAct_channels i s.ph s
    · exact ⟨fun hne => absurd htx hne, fun hne => absurd hrx hne⟩
    · exact ⟨fun _ => .inr ⟨rfl, hph, i, hcur, hi⟩, fun _ => .inr ⟨rfl, hph, i, hcur, hi⟩⟩
  | shift =>
    cases h
    exact ⟨fun hne => absurd rfl hne, fun hne => absurd rfl hne⟩
  | txch =>
    obtain ⟨v, -, rfl⟩ := txAct_eq_next.1 h
    exact ⟨fun _ => .inl ⟨rfl, rfl, rfl⟩, fun hne => absurd rfl hne⟩
  | rxch =>
    rw [rxAct_frame h]
    exact ⟨fun hne => absurd rfl hne, fun _ => .inl ⟨rfl, rfl, rfl⟩⟩

theorem bigStep_mem {i : Instr} (hi : ∀ a n, i ≠ .rdburst a n) (s : State) : (bigStep i s).mem = s.mem := by
  cases i with
  | sel | desel | rdb | wrb | crst => rfl
  | rdburst a n => exact absurd rfl (hi a n)
  | wrburst a n => exact Direction.loop_write_mem n.toNat a s

/-- The host changes memory only by a store (rule R60). -/
theorem hostAct_mem {s t : State} (h : hostAct s = .next t) (hne : t.mem ≠ s.mem) :
    ∃ a v rest, s.inputs = .store a v :: rest := by
  rcases hin : s.inputs with _ | ⟨w | w | ⟨a, v⟩ | _ | _, rest⟩ <;> simp only [hostAct, hin] at h
  case cons.command | cons.stepwise =>
    obtain ⟨i, -, -, -, rfl⟩ := accept_eq_next.1 h
    exact absurd rfl hne
  case cons.store => exact ⟨a, v, rest, rfl⟩
  all_goals
    cases h
    exact absurd rfl hne

/-- The receive channel changes memory only where its destination is a byte of memory (rule R123). -/
theorem rxAct_mem {s t : State} (h : rxAct s = .next t) (hne : t.mem ≠ s.mem) : ∃ a, s.rx.waddr = .mem a := by
  obtain ⟨u, hu, rfl⟩ := rxAct_eq_next.1 h
  obtain ⟨a, hdst, -⟩ | ⟨-, rfl⟩ := locWrite_eq_ok.1 hu
  · exact ⟨a, hdst⟩
  · exact absurd rfl hne

/-- Settles O45: of the big steps by `bigStep_mem`, of the agents by what each can do. -/
theorem onlyReadBurstsChangeMemory : Obligations.OnlyReadBurstsChangeMemory := by
  refine ⟨fun s t i h hi => ?_, fun s t ag h hne => ?_⟩
  · obtain ⟨-, -, rfl⟩ := exec_eq_next.1 h
    exact bigStep_mem hi s
  · cases ag with
    | host => exact .inl ⟨rfl, hostAct_mem h hne⟩
    | eng =>
      obtain ⟨i, -, rfl⟩ := act_eng_eq_next.1 h
      exact absurd (engAct_outside i s.ph s).1 hne
    | shift =>
      cases h
      exact absurd rfl hne
    | txch =>
      obtain ⟨v, -, rfl⟩ := txAct_eq_next.1 h
      exact absurd rfl hne
    | rxch => exact .inr ⟨rfl, rxAct_mem h hne⟩

end Sys2Proof.Machine
end

section
/-!
PROOFS, what goes over the bus (rules R110, R111, R118, R132, R187; conflict C7): a burst's big step as one exchange for
each byte it sends, and from that the two bursts' results, the round trips, and the comparisons of two runs.
-/

namespace Sys2Proof.Machine

/-! ## Bytes read off memory -/

@[simp] theorem length_memBytes (m : Memory) (a n : Nat) : (memBytes m a n).length = n := by simp [memBytes]

theorem memBytes_eq_of_getElem? {m : Memory} {a n : Nat} {bs : List Byte} (hlen : bs.length = n)
    (h : ∀ k < n, bs[k]? = some (m.read (a + k))) : memBytes m a n = bs := by
  refine List.ext_getElem? fun k => ?_
  by_cases hk : k < n
  · simp [memBytes, h k hk, hk]
  · rw [List.getElem?_eq_none (by simpa using hk), List.getElem?_eq_none (by omega)]

theorem read_eq_of_memBytes_eq {m m' : Memory} {a n : Nat} (h : memBytes m a n = memBytes m' a n) {k : Nat}
    (hk : k < n) : m.read (a + k) = m'.read (a + k) :=
  List.map_inj_left.1 h k (List.mem_range.2 hk)

/-! ## A burst on the bus (rules R110 and R111) -/

/-- The bytes a burst sends: the filler for each byte, or the buffer. -/
def Direction.out : Direction → State → Addr → Nat → List Byte
  | .read, _, _, n => List.replicate n Config.fill
  | .write, s, a, n => memBytes s.mem a.toNat n

/-- From `s` to `t` the bytes `os` have been exchanged, one after another, with CSn low. -/
structure Exchanged (os : List Byte) (s t : State) : Prop where
  trace : t.trace = s.trace ++ exchanges os (s.slave.answers os).1
  slave : t.slave = (s.slave.answers os).2
  txd : t.txd = os.getLastD s.txd
  rxd : t.rxd = (s.slave.answers os).1.getLastD s.rxd

theorem getLast?_eq_of_getLastD {bs : List Byte} {b c : Byte} (h : c = bs.getLastD b) (hne : 0 < bs.length) :
    bs.getLast? = some c := by
  rw [h, List.getLastD_eq_getLast?, List.getLast?_eq_some_getLast (List.ne_nil_of_length_pos hne), Option.getD_some]

theorem getLastD_eq_of_getLast? {bs : List Byte} {b c : Byte} (h : bs.getLast? = some c) : c = bs.getLastD b := by
  rw [List.getLastD_eq_getLast?, h, Option.getD_some]

theorem lawful_burst_iff {d : Direction} {a : Addr} {n : Len} {s : State} :
    Lawful (d.instr a n) s ↔
      s.params.burstPath = true ∧ n ≠ 0 ∧ BufferAllocated s.params a n ∧ s.cs = .low := by
  cases d <;> rfl

@[simp] theorem length_out (d : Direction) (s : State) (a : Addr) (n : Nat) : (d.out s a n).length = n := by
  cases d <;> simp [Direction.out]

section
variable {d : Direction} {a : Addr} {n : Len} {s : State} (hlaw : Lawful (d.instr a n) s)
include hlaw

theorem exchanged_bigStep_burst : Exchanged (d.out s a n.toNat) s (bigStep (d.instr a n) s) := by
  obtain ⟨hn, hwrap, -⟩ := Direction.lawful hlaw
  obtain ⟨-, -, -, hcs⟩ := lawful_burst_iff.1 hlaw
  cases d with
  | read =>
    obtain ⟨htrace, hslave, -, hlast⟩ := rdburstLoop_closed n.toNat a hcs
    obtain ⟨htxd, hrxd, -, -⟩ := hlast hn
    refine ⟨htrace, hslave, getLastD_eq_of_getLast? ?_, getLastD_eq_of_getLast? hrxd⟩
    rw [Direction.out, List.getLast?_replicate, if_neg hn.ne', ← htxd]
    rfl
  | write =>
    obtain ⟨htrace, hslave, hlast⟩ := wrburstLoop_closed n.toNat a hcs
    rw [outbound_eq_memBytes hwrap] at htrace hslave hlast
    obtain ⟨htxd, hrxd, -⟩ := hlast hn
    exact ⟨htrace, hslave, getLastD_eq_of_getLast? htxd, getLastD_eq_of_getLast? hrxd⟩

/-- A burst leaves the data register empty. -/
theorem bigStep_burst_flags : (bigStep (d.instr a n) s).txf = false ∧ (bigStep (d.instr a n) s).rxf = false := by
  rw [Direction.bigStep_eq]
  exact Direction.loop_flags d (Direction.lawful hlaw).1 a s

end

/-- What a burst leaves alone: the lines, the holds of the chip reset, and what stands outside the block but memory. -/
theorem bigStep_burst_keeps (d : Direction) (a : Addr) (n : Len) (s : State) :
    let t := bigStep (d.instr a n) s
    t.cs = s.cs ∧ t.rstl = s.rstl ∧ t.rstd = s.rstd ∧ t.timer = s.timer ∧ t.holdLow = s.holdLow ∧
      t.holdHigh = s.holdHigh ∧ t.params = s.params ∧ t.inputs = s.inputs ∧ t.arb = s.arb ∧ t.draws = s.draws := by
  rw [Direction.bigStep_eq, Direction.loop_frame]
  exact ⟨rfl, rfl, rfl, rfl, rfl, rfl, rfl, rfl, rfl, rfl⟩

theorem bufferEnd_eq (a : Addr) (n : Len) : bufferEnd a n = BitVec.ofNat 32 (a.toNat + n.toNat) := by
  simp [bufferEnd, BitVec.ofNat_add]

/-- What a read burst stores: the k-th answer at `a + k`, and nothing else (rule R110). -/
theorem rdburstStep_mem {s : State} {a : Addr} {n : Len} (hlaw : Lawful (.rdburst a n) s) :
    (rdburstStep a n s).mem = storeAll s.mem a (s.slave.answers (List.replicate n.toNat Config.fill)).1 := by
  obtain ⟨-, -, -, hcs⟩ := hlaw
  obtain ⟨-, -, hmem, -⟩ := rdburstLoop_closed n.toNat a hcs
  exact hmem

theorem rdburstStep_txd {s : State} {a : Addr} {n : Len} (hlaw : Lawful (.rdburst a n) s) :
    (rdburstStep a n s).txd = Config.fill := by
  obtain ⟨hn, -⟩ := Direction.lawful (d := .read) hlaw
  obtain ⟨-, -, -, hcs⟩ := hlaw
  obtain ⟨-, -, -, hlast⟩ := rdburstLoop_closed n.toNat a hcs
  exact (hlast hn).1

theorem rdburstStep_scratch (a : Addr) (n : Len) (s : State) : (rdburstStep a n s).scratch = s.scratch := by
  rw [rdburstStep, rdburstLoop_frame]
  rfl

theorem wrburstStep_scratch {s : State} {a : Addr} {n : Len} (hlaw : Lawful (.wrburst a n) s) :
    (wrburstStep a n s).scratch = (wrburstStep a n s).rxd := by
  obtain ⟨hn, -⟩ := Direction.lawful (d := .write) hlaw
  obtain ⟨-, -, -, hcs⟩ := hlaw
  obtain ⟨-, -, hlast⟩ := wrburstLoop_closed n.toNat a hcs
  obtain ⟨-, -, hscratch, -⟩ := hlast hn
  exact hscratch

/-- Settles O20: the exchanges of `n` fillers, the answers stored one after another, and what a burst leaves alone. -/
theorem readBurstStoresTheAnswers : Obligations.ReadBurstStoresTheAnswers := by
  intro s a n hidle hlaw hwf r
  obtain ⟨hn, hwrap, -⟩ := Direction.lawful (d := .read) hlaw
  have hlen : r.1.length = n.toNat := by simp [r]
  rw [← hlen] at hwrap
  have hmem : (rdburstStep a n s).mem = storeAll s.mem a r.1 := rdburstStep_mem hlaw
  obtain ⟨htrace, hslave, -, hrxd⟩ := exchanged_bigStep_burst (d := .read) hlaw
  obtain ⟨htxf, hrxf⟩ := bigStep_burst_flags (d := .read) hlaw
  obtain ⟨hcs, hrstl, hrstd, hkeeps⟩ := bigStep_burst_keeps .read a n s
  refine ⟨rdburstStep a n s, exec_eq_next.2 ⟨hidle, hlaw, rfl⟩, hlen, htrace, hslave, fun k hk => ?stored,
    fun x hx => ?other, rfl, ?rx, rdburstStep_txd hlaw,
    getLast?_eq_of_getLastD hrxd (hlen.symm ▸ hn), htxf, hrxf, rfl, rfl, rfl, rfl, hcs, hrstl, hrstd,
    rdburstStep_scratch a n s, hkeeps⟩
  case stored =>
    rw [hmem, storeAll_read hwf hwrap (hlen.symm ▸ hk)]
    exact List.getElem?_eq_getElem _
  case other => rw [hmem, storeAll_read_other hwf hwrap (hlen.symm ▸ hx)]
  case rx =>
    rw [← bufferEnd_eq]
    rfl

/-- Settles O21: the exchanges of the buffer's bytes, and what a burst leaves alone. -/
theorem writeBurstSendsTheBuffer : Obligations.WriteBurstSendsTheBuffer := by
  intro s a n hidle hlaw out r
  obtain ⟨hn, -⟩ := Direction.lawful (d := .write) hlaw
  have hout : out.length = n.toNat := length_memBytes _ _ _
  have hlen : r.1.length = n.toNat := (length_answers _ _).trans hout
  obtain ⟨htrace, hslave, htxd, hrxd⟩ := exchanged_bigStep_burst (d := .write) hlaw
  obtain ⟨htxf, hrxf⟩ := bigStep_burst_flags (d := .write) hlaw
  refine ⟨wrburstStep a n s, exec_eq_next.2 ⟨hidle, hlaw, rfl⟩, hlen, htrace, hslave,
    Direction.loop_write_mem n.toNat a s, ?tx, rfl, getLast?_eq_of_getLastD htxd (hout.symm ▸ hn),
    getLast?_eq_of_getLastD hrxd (hlen.symm ▸ hn), wrburstStep_scratch hlaw, htxf, hrxf,
    rfl, rfl, rfl, rfl, bigStep_burst_keeps .write a n s⟩
  rw [← bufferEnd_eq]
  rfl

/-! ## Round trips (rule R132; properties T1 and P3) -/

theorem answers_wire (os : List Byte) : Slave.wire.answers os = (os, .wire) := by
  induction os with
  | nil => rfl
  | cons o os ih => simp [Slave.answers, Slave.exchange, ih]

/-- A write burst leaves a read burst that was lawful before it lawful. -/
theorem lawful_rdburst_of_same {s t : State} {b : Addr} {n : Len} (hcs : t.cs = s.cs) (hparams : t.params = s.params)
    (hlaw : Lawful (.rdburst b n) s) : Lawful (.rdburst b n) t := by
  simpa [Lawful, hcs, hparams] using hlaw

/-- The buffer of a read burst holds the slave's answers. -/
theorem exists_rdburst {s : State} {b : Addr} {n : Len} (hidle : s.cmdBusy = false) (hwf : s.mem.wf)
    (hlaw : Lawful (.rdburst b n) s) :
    ∃ u, exec (.rdburst b n) s = .next u ∧
      memBytes u.mem b.toNat n.toNat = (s.slave.answers (List.replicate n.toNat 0xFF)).1 ∧
      u.cmdBusy = false ∧ u.cs = s.cs ∧ u.rstd = s.rstd := by
  obtain ⟨u, hexec, hlen, -, -, hread, -, -, -, -, -, -, -, hbusy, -, -, -, hcs, -, hrstd, -⟩ :=
    readBurstStoresTheAnswers s b n hidle hlaw hwf
  exact ⟨u, hexec, memBytes_eq_of_getElem? hlen hread, hbusy, hcs, hrstd⟩

/-- A write burst hands the slave the bytes of the buffer and leaves memory, the lines and the parameters. -/
theorem exists_wrburst {s : State} {a : Addr} {n : Len} (hidle : s.cmdBusy = false) (hlaw : Lawful (.wrburst a n) s) :
    ∃ t, exec (.wrburst a n) s = .next t ∧ t.slave = (s.slave.answers (memBytes s.mem a.toNat n.toNat)).2 ∧
      t.mem = s.mem ∧ t.cmdBusy = false ∧ t.cs = s.cs ∧ t.rstd = s.rstd ∧ t.params = s.params := by
  obtain ⟨t, hexec, -, -, hslave, hmem, -, -, -, -, -, -, -, hbusy, -, -, -, hcs, -, hrstd, -, -, -, hparams, -⟩ :=
    writeBurstSendsTheBuffer s a n hidle hlaw
  exact ⟨t, hexec, hslave, hmem, hbusy, hcs, hrstd, hparams⟩

/-- Settles O48: the read burst's buffer holds the answers, whatever they are. -/
theorem burstRoundTripHoldsExactlyForStoringSlaves : Obligations.BurstRoundTripHoldsExactlyForStoringSlaves := by
  intro s a b n hidle hwf hwrite hread
  obtain ⟨t, ht, hslave, hmem, hbusy, hcs, -, hparams⟩ := exists_wrburst hidle hwrite
  obtain ⟨u, hu, hbytes, -⟩ := exists_rdburst hbusy (hmem ▸ hwf) (lawful_rdburst_of_same hcs hparams hread)
  refine ⟨t, u, ht, hu, by rw [hbytes], fun hwire => ?_⟩
  rw [hbytes, hslave, hwire, answers_wire, answers_wire]

theorem answers_simMem_write (store : List Byte) (rp : Nat) (os : List Byte) :
    ((Slave.simMem .write store rp).answers os).2 = .simMem .write (store ++ os) rp := by
  induction os generalizing store with
  | nil => simp [Slave.answers]
  | cons o os ih => simp [Slave.answers, Slave.exchange, simMemExchange, ih]

/-- In its read mode `SimMem` answers with what it stores, from its read position on. -/
theorem answers_simMem_read (store : List Byte) (rp : Nat) (os : List Byte) (h : rp + os.length = store.length) :
    ((Slave.simMem .read store rp).answers os).1 = store.drop rp := by
  induction os generalizing rp with
  | nil =>
    have hrp : rp = store.length := h
    simp [Slave.answers, hrp]
  | cons o os ih =>
    simp only [List.length_cons] at h
    have hrp : rp < store.length := by omega
    simp [Slave.answers, Slave.exchange, simMemExchange, ih (rp + 1) (by omega), hrp]

theorem execAll_cons_of_exec {i : Instr} {is : List Instr} {s t : State} (h : exec i s = .next t) :
    execAll (i :: is) s = execAll is t := by
  simp [execAll, h]

/-- The store that the first span leaves, read by the second one (rule R132). -/
theorem simMem_returns_its_bytes (mode : SimMode) (store : List Byte) (rp : Nat) (bs : List Byte) :
    let written := (((Slave.simMem mode store rp).csFall.exchange 0x01).2.answers bs).2
    ((written.csRise.csFall.exchange 0x02).2.answers (List.replicate bs.length 0xFF)).1 = bs := by
  have hwritten : (((Slave.simMem mode store rp).csFall.exchange 0x01).2.answers bs).2 = .simMem .write bs rp :=
    answers_simMem_write [] rp bs
  rw [hwritten]
  exact answers_simMem_read bs 0 _ (by simp)

/-- Settles O49: the eight commands one after another, and what `SimMem` answers in the second span. -/
theorem storingSlaveRoundTrip : Obligations.StoringSlaveRoundTrip := by
  intro s a b n mode store rp hidle hwf hcs hrstd hslave hpath hn ha hb
  have hsel : exec .sel s = .next (selStep s) := exec_eq_next.2 ⟨hidle, ⟨hcs, hrstd⟩, rfl⟩
  have hcmd : exec (.wrb 0x01) (selStep s) = .next (wrbStep 0x01 (selStep s)) := exec_eq_next.2 ⟨rfl, rfl, rfl⟩
  obtain ⟨t, hwrite, htslave, htmem, htbusy, htcs, htrstd, htparams⟩ :=
    exists_wrburst (s := wrbStep 0x01 (selStep s)) (a := a) (n := n) rfl ⟨hpath, hn, ha, rfl⟩
  have hdesel : exec .desel t = .next (deselStep t) := exec_eq_next.2 ⟨htbusy, htcs, rfl⟩
  have hsel' : exec .sel (deselStep t) = .next (selStep (deselStep t)) :=
    exec_eq_next.2 ⟨rfl, ⟨rfl, htrstd.trans hrstd⟩, rfl⟩
  have hcmd' : exec (.wrb 0x02) (selStep (deselStep t)) = .next (wrbStep 0x02 (selStep (deselStep t))) :=
    exec_eq_next.2 ⟨rfl, rfl, rfl⟩
  have hlaw : Lawful (.rdburst b n) (wrbStep 0x02 (selStep (deselStep t))) :=
    lawful_rdburst_of_same (s := wrbStep 0x01 (selStep s)) rfl htparams ⟨hpath, hn, hb, rfl⟩
  obtain ⟨u, hread, hbytes, hubusy, hucs, -⟩ := exists_rdburst rfl (htmem ▸ hwf) hlaw
  have hdesel' : exec .desel u = .next (deselStep u) := exec_eq_next.2 ⟨hubusy, hucs, rfl⟩
  refine ⟨deselStep u, ?_, ?_, rfl⟩
  · rw [execAll_cons_of_exec hsel, execAll_cons_of_exec hcmd, execAll_cons_of_exec hwrite, execAll_cons_of_exec hdesel,
      execAll_cons_of_exec hsel', execAll_cons_of_exec hcmd', execAll_cons_of_exec hread, execAll_cons_of_exec hdesel']
    rfl
  · have hreturn := simMem_returns_its_bytes mode store rp (memBytes s.mem a.toNat n.toNat)
    rw [length_memBytes, ← hslave] at hreturn
    refine hbytes.trans (Eq.trans ?_ hreturn)
    change ((t.slave.csRise.csFall.exchange 0x02).2.answers _).1 = _
    rw [htslave]
    rfl

/-! ## A burst and its bytes moved one by one (conflict C7; program P3) -/

/-- A byte for each byte command: `o` is sent by `mk o`, which completes with `c` of the answer. -/
theorem exists_execAll_bytes {mk : Byte → Instr} {c : Byte → Completion} {os : List Byte}
    (hmk : ∀ o ∈ os, ByteCommand (mk o) o c) {s : State} (hidle : s.cmdBusy = false) (hcs : s.cs = .low) :
    ∃ u, execAll (os.map mk) s = some u ∧ Exchanged os s u ∧ u.cs = .low ∧ u.mem = s.mem ∧
      completions (os.map mk) s = (s.slave.answers os).1.map c := by
  induction os generalizing s with
  | nil => exact ⟨s, rfl, ⟨by simp [exchanges], rfl, rfl, rfl⟩, hcs, rfl, rfl⟩
  | cons o os ih =>
    obtain ⟨ho, hos⟩ := List.forall_mem_cons.1 hmk
    have hexec : exec (mk o) s = .next (complete (c (s.slave.exchange o).1) (transfer o s)) :=
      exec_eq_next.2 ⟨hidle, ho.lawful_iff.2 hcs, ho.bigStep_eq s⟩
    obtain ⟨u, hall, ⟨htrace, hslave, htxd, hrxd⟩, hucs, hmem, hcompl⟩ :=
      ih hos (s := complete (c (s.slave.exchange o).1) (transfer o s)) rfl hcs
    refine ⟨u, by rw [List.map_cons, execAll_cons_of_exec hexec, hall], ⟨?trace, hslave, ?txd, ?rxd⟩, hucs, hmem,
      ?compl⟩
    case trace => simpa [Slave.answers, exchanges, hcs] using htrace
    case txd => exact htxd.trans (List.getLastD_cons ..).symm
    case rxd => exact hrxd.trans (List.getLastD_cons ..).symm
    case compl => simpa [completions, hexec, Slave.answers] using hcompl

theorem completions_singleton {i : Instr} {s t : State} (h : exec i s = .next t) :
    completions [i] s = t.resp.toList := by
  simp [completions, h]

/-- Two runs that have exchanged the same bytes with the same slave look alike on the bus. -/
theorem Exchanged.alike {os : List Byte} {s t u : State} (ht : Exchanged os s t) (hu : Exchanged os s u) :
    t.trace = u.trace ∧ t.slave = u.slave ∧ t.txd = u.txd ∧ t.rxd = u.rxd :=
  ⟨ht.trace.trans hu.trace.symm, ht.slave.trans hu.slave.symm, ht.txd.trans hu.txd.symm, ht.rxd.trans hu.rxd.symm⟩

/-- Settles O50: the burst and the byte commands exchange the same bytes, from the same slave. -/
theorem burstAndByteCommandsLookAlikeOnTheBus : Obligations.BurstAndByteCommandsLookAlikeOnTheBus := by
  refine fun s a n hidle => ⟨fun hlaw => ?read, fun hlaw => ?write⟩
  case read =>
    obtain ⟨-, -, -, hcs⟩ := id hlaw
    have hexec : exec (.rdburst a n) s = .next (rdburstStep a n s) := exec_eq_next.2 ⟨hidle, hlaw, rfl⟩
    have hbus := exchanged_bigStep_burst (d := .read) hlaw
    obtain ⟨u, hall, hbytes, hucs, humem, hcompl⟩ :=
      exists_execAll_bytes (mk := fun _ => .rdb) (c := .byte) (os := List.replicate n.toNat Config.fill)
        (fun o ho => List.eq_of_mem_replicate ho ▸ .rdb) hidle hcs
    rw [List.map_replicate] at hall hcompl
    obtain ⟨htrace, hslave, htxd, hrxd⟩ := hbus.alike hbytes
    obtain ⟨htcs, -⟩ := bigStep_burst_keeps .read a n s
    refine ⟨rdburstStep a n s, u, hexec, hall, htrace, hslave, htcs.trans (hcs.trans hucs.symm), htxd, hrxd,
      fun hwf => ?_, completions_singleton hexec, hcompl, humem⟩
    obtain ⟨t, ht, hread, -⟩ := exists_rdburst hidle hwf hlaw
    rw [hexec] at ht
    cases ht
    exact hread
  case write =>
    obtain ⟨-, -, -, hcs⟩ := id hlaw
    have hexec : exec (.wrburst a n) s = .next (wrburstStep a n s) := exec_eq_next.2 ⟨hidle, hlaw, rfl⟩
    have hbus := exchanged_bigStep_burst (d := .write) hlaw
    obtain ⟨u, hall, hbytes, hucs, humem, hcompl⟩ :=
      exists_execAll_bytes (mk := .wrb) (c := fun _ => .bare) (fun o _ => .wrb o) hidle hcs
    obtain ⟨htrace, hslave, htxd, hrxd⟩ := hbus.alike hbytes
    obtain ⟨htcs, -⟩ := bigStep_burst_keeps .write a n s
    refine ⟨wrburstStep a n s, u, hexec, hall, htrace, hslave, htcs.trans (hcs.trans hucs.symm), htxd, hrxd,
      (Direction.loop_write_mem n.toNat a s).trans humem.symm, completions_singleton hexec, ?_⟩
    rw [List.map_const', length_answers, length_out] at hcompl
    exact hcompl

/-! ## What memory a burst shows the bus (rules R53, R61 and R118) -/

/-- Where the buffer holds the same bytes, a write burst's loop does the same in both memories. -/
theorem wrburstLoop_withMem {s : State} {m : Memory} {a : Addr} {n : Nat}
    (h : ∀ k < n, m.read (a + BitVec.ofNat 32 k).toNat = memRead s (a + BitVec.ofNat 32 k)) :
    wrburstLoop n a { s with mem := m } = { wrburstLoop n a s with mem := m } := by
  induction n with
  | zero => rfl
  | succ n ih =>
    rw [wrburstLoop_succ, wrburstLoop_succ, ih fun k hk => h k (by omega),
      show memRead { s with mem := m } (a + BitVec.ofNat 32 n) = memRead s (a + BitVec.ofNat 32 n) from h n (by omega)]
    rfl

/-- Settles O51: a read burst sends fillers whatever memory holds; a write burst reads memory at its buffer alone. -/
theorem onlyTheBufferReachesTheBus : Obligations.OnlyTheBufferReachesTheBus := by
  refine fun s m a n t u => ⟨fun ht hu => ?read, fun hbytes ht hu => ?write⟩
  case read =>
    obtain ⟨-, hlaw, rfl⟩ := exec_eq_next.1 ht
    obtain ⟨-, hlaw', rfl⟩ := exec_eq_next.1 hu
    obtain ⟨htrace, hslave, -⟩ := exchanged_bigStep_burst (d := .read) hlaw
    obtain ⟨htrace', hslave', -⟩ := exchanged_bigStep_burst (d := .read) hlaw'
    exact ⟨htrace'.trans htrace.symm, hslave'.trans hslave.symm⟩
  case write =>
    obtain ⟨-, hlaw, rfl⟩ := exec_eq_next.1 ht
    obtain ⟨-, -, rfl⟩ := exec_eq_next.1 hu
    obtain ⟨-, hwrap, -⟩ := Direction.lawful (d := .write) hlaw
    have hloop := wrburstLoop_withMem (s := s) (m := m) (a := a) (n := n.toNat) fun k hk => by
      rw [memRead, toNat_add_ofNat hwrap hk, read_eq_of_memBytes_eq hbytes hk]
    change wrburstStep a n { s with mem := m } = _
    rw [wrburstStep, hloop]
    rfl

end Sys2Proof.Machine
end

section
/-!
PROOFS, inside a burst (spec/42_burst_transfer.md section 4, rules R128 to R130): how far each of the three agents of a
started burst is, which of them can step next, and what any schedule of them has counted. What is said of a state holds
of every state that looks like a started burst, reached from an acceptance or not.
-/

namespace Sys2Proof.Machine

/-- In a quiet block with no command held none of the block's agents has an enabled step (rule R42). -/
theorem not_enabled_of_quiet {s : State} (hquiet : quiet s) (hcur : s.cur = none) {ag : Agent} (hag : ag ≠ .host) :
    enabled ag s = false := by
  obtain ⟨htxf, -, htx, hrx, -, -⟩ := hquiet
  by_contra hen
  obtain ⟨-, i, hi, -⟩ | ⟨-, hfull, -⟩ := enabled_of_channels_idle htx hrx hag (eq_true_of_ne_false hen)
  · simp [hcur] at hi
  · simp [htxf] at hfull

/-- So no schedule of theirs leads anywhere. -/
theorem eq_of_runAgents_quiet {s u : State} (hquiet : quiet s) (hcur : s.cur = none) {l : List Agent}
    (hhost : .host ∉ l) (hrun : runAgents l s = some u) : u = s ∧ l = [] := by
  cases l with
  | nil => exact ⟨(Option.some.inj hrun).symm, rfl⟩
  | cons ag l =>
    obtain ⟨hag, -⟩ := List.ne_and_not_mem_of_not_mem_cons hhost
    obtain ⟨-, hen, -, -⟩ := runAgents_cons_eq_some.1 hrun
    simp [not_enabled_of_quiet hquiet hcur hag.symm] at hen

theorem toNat_len_sub {n : Len} {k : Nat} (hk : k ≤ n.toNat) : (n - BitVec.ofNat 24 k).toNat = n.toNat - k := by
  have hlt := n.isLt
  rw [BitVec.toNat_sub_of_le] <;> simp only [BitVec.le_def, BitVec.toNat_ofNat] <;>
    rw [Nat.mod_eq_of_lt (by omega)]
  exact hk

namespace Direction

variable {d : Direction} {a : Addr} {n : Len} {s u : State} {t x r : Nat}

/-! ## Which agent can step (rules R122 to R124 and R128) -/

/-- State `s` is inside the started burst `d.instr a n`, after `t`, `x` and `r` steps of TXCH, SHIFT and RXCH. -/
structure At (d : Direction) (a : Addr) (n : Len) (s : State) (t x r : Nat) : Prop where
  order : InOrder n t x r
  cur : s.cur = some (d.instr a n)
  ph : s.ph = 1
  buffer : BufferAllocated s.params a n
  tx : s.tx = d.tx a n t
  rx : s.rx = d.rx a n r
  txf : s.txf = decide (x < t)
  rxf : s.rxf = decide (r < x)

theorem at_during (hin : InOrder n t x r) (halloc : BufferAllocated s.params a n) :
    At d a n (d.during a n s t x r) t x r :=
  ⟨hin, rfl, rfl, halloc, rfl, rfl, rfl, rfl⟩

namespace At
variable (h : At d a n s t x r)
include h

theorem tx_busy_iff : s.tx.busy = true ↔ t < n.toNat := by
  rw [h.tx]
  exact decide_eq_true_iff

theorem rx_busy_iff : s.rx.busy = true ↔ r < n.toNat := by
  rw [h.rx]
  exact decide_eq_true_iff

theorem txf_iff : s.txf = true ↔ x < t := by
  rw [h.txf]
  exact decide_eq_true_iff

theorem rxf_iff : s.rxf = true ↔ r < x := by
  rw [h.rxf]
  exact decide_eq_true_iff

/-- The counts are what is left, and what is in flight is what the flags say (rule R128). -/
theorem counts :
    s.tx.count.toNat = n.toNat - t ∧ s.rx.count.toNat = n.toNat - r ∧ t = x + s.txf.toNat ∧ x = r + s.rxf.toNat := by
  obtain ⟨hrx, hxt, htn, htx, hxr⟩ := h.order
  refine ⟨by rw [h.tx]; exact toNat_len_sub htn, by rw [h.rx]; exact toNat_len_sub (by omega), ?_, ?_⟩
  · rw [Bool.toNat, h.txf, Bool.cond_decide]
    split <;> omega
  · rw [Bool.toNat, h.rxf, Bool.cond_decide]
    split <;> omega

theorem enabled_txch_iff : enabled .txch s = true ↔ t < n.toNat ∧ x = t := by
  have hxt := h.order.exchanged
  rw [enabled_txch, h.tx_busy_iff, ← Bool.not_eq_true, h.txf_iff]
  omega

theorem enabled_shift_iff : enabled .shift s = true ↔ x < t ∧ r = x := by
  have hrx := h.order.received
  rw [enabled_shift, h.txf_iff, ← Bool.not_eq_true, h.rxf_iff]
  omega

theorem enabled_rxch_iff : enabled .rxch s = true ↔ r < x := by
  have hxt := h.order.exchanged
  have htn := h.order.sent
  rw [enabled_rxch, h.rx_busy_iff, h.rxf_iff]
  omega

theorem enabled_eng_iff : enabled .eng s = true ↔ r = n.toNat := by
  have hrx := h.order.received
  have hxt := h.order.exchanged
  have htn := h.order.sent
  rw [enabled_eng_started h.cur h.ph, ← Bool.not_eq_true, h.rx_busy_iff]
  omega

/-- Somewhere in the burst there is an agent with an enabled step (rule R130). -/
theorem exists_enabled : ∃ ag, ag ≠ .host ∧ enabled ag s = true := by
  obtain ⟨hrx, hxt, htn, -, -⟩ := h.order
  by_cases hr : r < x
  · exact ⟨.rxch, by decide, h.enabled_rxch_iff.2 hr⟩
  by_cases hx : x < t
  · exact ⟨.shift, by decide, h.enabled_shift_iff.2 ⟨hx, by omega⟩⟩
  by_cases ht : t < n.toNat
  · exact ⟨.txch, by decide, h.enabled_txch_iff.2 ⟨ht, by omega⟩⟩
  · exact ⟨.eng, by decide, h.enabled_eng_iff.2 (by omega)⟩

theorem act_txch (ht : t < n.toNat) (hx : x = t) :
    ∃ u, act .txch s = .next u ∧ At d a n u (t + 1) x r := by
  obtain ⟨hrx, hxt, htn, htx, hxr⟩ := h.order
  have hread : locRead s.tx.raddr s = .ok (d.sent s (a + BitVec.ofNat 32 t)) := by
    rw [h.tx]
    exact locRead_source (h.buffer.inAlloc_add ht)
  refine ⟨_, act_txch_of_locRead hread, ⟨hrx, by omega, ht, by omega, hxr⟩, h.cur, h.ph, h.buffer, ?_, h.rx, ?_, h.rxf⟩
  · rw [← tx_stepped ht, ← h.tx]
  · exact (decide_eq_true (by omega)).symm

theorem act_shift (hx : x < t) (hr : r = x) : At d a n (shiftAct s) t (x + 1) r := by
  obtain ⟨hrx, hxt, htn, htx, hxr⟩ := h.order
  refine ⟨⟨by omega, hx, htn, by omega, by omega⟩, h.cur, h.ph, h.buffer, h.tx, h.rx, ?_, ?_⟩
  · exact (decide_eq_false (by omega)).symm
  · exact (decide_eq_true (by omega)).symm

theorem act_rxch (hr : r < x) : ∃ u, act .rxch s = .next u ∧ At d a n u t x (r + 1) := by
  obtain ⟨hrx, hxt, htn, htx, hxr⟩ := h.order
  have hrn : r < n.toNat := by omega
  have hwrite : locWrite s.rx.waddr s.rxd (drRead s) = .ok (d.put (a + BitVec.ofNat 32 r) s.rxd (drRead s)) := by
    rw [h.rx]
    exact locWrite_sink s.rxd (h.buffer.inAlloc_add hrn)
  have hact := act_rxch_of_locWrite hwrite
  refine ⟨_, hact, ?_⟩
  rw [rxAct_frame hact]
  refine ⟨⟨hr, hxt, htn, htx, by omega⟩, h.cur, h.ph, h.buffer, h.tx, ?_, h.txf, ?_⟩
  · rw [← rx_stepped hrn, ← h.rx]
  · exact (decide_eq_false (by omega)).symm

/-- Somewhere in the burst there is an agent with an enabled step that has a next state (rule R130). -/
theorem exists_step : ∃ ag u, ag ≠ .host ∧ enabled ag s = true ∧ act ag s = .next u := by
  obtain ⟨ag, hag, hen⟩ := h.exists_enabled
  suffices hact : ∃ u, act ag s = .next u by
    obtain ⟨u, hu⟩ := hact
    exact ⟨ag, u, hag, hen, hu⟩
  cases ag with
  | host => exact absurd rfl hag
  | eng => exact ⟨_, act_eng_started h.cur h.ph⟩
  | shift => exact ⟨_, rfl⟩
  | txch =>
    obtain ⟨ht, hx⟩ := h.enabled_txch_iff.1 hen
    obtain ⟨u, hu, -⟩ := h.act_txch ht hx
    exact ⟨u, hu⟩
  | rxch =>
    obtain ⟨u, hu, -⟩ := h.act_rxch (h.enabled_rxch_iff.1 hen)
    exact ⟨u, hu⟩

end At

/-! ## What a schedule has counted (rules R128 and R129) -/

/-- A schedule of a started burst that has not completed is told by how often each agent has stepped. -/
theorem eq_during_of_runAgents (hn : 0 < n.toNat) (halloc : BufferAllocated s.params a n) {l : List Agent}
    (hhost : .host ∉ l) (hbusy : u.cmdBusy = true) (hin : InOrder n t x r)
    (hrun : runAgents l (d.during a n s t x r) = some u) :
    u = d.during a n s (t + l.count .txch) (x + l.count .shift) (r + l.count .rxch) ∧
      InOrder n (t + l.count .txch) (x + l.count .shift) (r + l.count .rxch) ∧
      l.count .txch + l.count .shift + l.count .rxch = l.length := by
  induction l generalizing t x r with
  | nil => exact ⟨(Option.some.inj hrun).symm, hin, rfl⟩
  | cons ag l ih =>
    obtain ⟨hag, hl⟩ := List.ne_and_not_mem_of_not_mem_cons hhost
    obtain ⟨v, hen, hact, hrest⟩ := runAgents_cons_eq_some.1 hrun
    obtain ⟨rfl, rfl, hin'⟩ | ⟨rfl, rfl, hin'⟩ | ⟨rfl, rfl, hin'⟩ | ⟨-, rfl, rfl, rfl, rfl⟩ :=
      act_during_cases halloc hin hag.symm hen hact
    case inr.inr.inr =>
      rw [complete_during hn] at hrest
      have hcur : (bigStep (d.instr a n) s).cur = none := (bigStep_idle _ s).2.1
      obtain ⟨rfl, -⟩ := eq_of_runAgents_quiet (quiet_bigStep_burst hn) hcur hl hrest
      simp [bigStep_idle] at hbusy
    all_goals
      obtain ⟨hu, hin'', hlen⟩ := ih hl hin' hrest
      simp only [Nat.add_right_comm _ 1] at hu hin''
      refine ⟨by simpa [List.count_cons, ← Nat.add_assoc] using hu,
        by simpa [List.count_cons, ← Nat.add_assoc] using hin'', ?_⟩
      rw [List.length_cons, ← hlen]
      simp only [List.count_cons, beq_iff_eq, reduceCtorEq, ite_true, ite_false]
      omega

/-- A started burst can be run to its completion, three steps a byte and one after the start (rule R130). -/
theorem exists_completion (hn : 0 < n.toNat) (halloc : BufferAllocated s.params a n) (k : Nat) {t x r : Nat}
    (hin : InOrder n t x r) (hk : t + x + r + k = 3 * n.toNat + 1) :
    ∃ m : List Agent, .host ∉ m ∧
      runAgents m (d.during a n s t x r) = some (bigStep (d.instr a n) s) ∧ m.length = k := by
  induction k generalizing t x r with
  | zero =>
    obtain ⟨hrx, hxt, htn, -, -⟩ := hin
    omega
  | succ k ih =>
    have hat := at_during (d := d) hin halloc
    obtain ⟨ag, u, hag, hen, hact⟩ := hat.exists_step
    suffices hrest : ∃ m : List Agent, .host ∉ m ∧ runAgents m u = some (bigStep (d.instr a n) s) ∧ m.length = k by
      obtain ⟨m, hm, hrun, hlen⟩ := hrest
      exact ⟨ag :: m, by simp [hag.symm, hm], runAgents_cons_eq_some.2 ⟨u, hen, hact, hrun⟩, by simp [hlen]⟩
    obtain ⟨-, rfl, hin'⟩ | ⟨-, rfl, hin'⟩ | ⟨-, rfl, hin'⟩ | ⟨-, rfl, rfl, rfl, rfl⟩ :=
      act_during_cases halloc hin hag hen hact
    case inr.inr.inr =>
      rw [complete_during hn]
      exact ⟨[], by simp, rfl, show 0 = k by omega⟩
    all_goals exact ih hin' (by omega)

end Direction

/-! ## The burst from its acceptance (rules R128 to R130) -/

theorem exists_direction {i : Instr} {a : Addr} {n : Len} (hi : i = .rdburst a n ∨ i = .wrburst a n) :
    ∃ d : Direction, i = d.instr a n := by
  obtain rfl | rfl := hi
  · exact ⟨.read, rfl⟩
  · exact ⟨.write, rfl⟩

section
variable {d : Direction} {a : Addr} {n : Len} {s u : State} (hquiet : quiet s) (hlaw : Lawful (d.instr a n) s)
include hquiet hlaw

theorem runAgents_eng_accepted_burst (l : List Agent) :
    runAgents (.eng :: l) (accepted (d.instr a n) s) = runAgents l (d.during a n s 0 0 0) :=
  (Direction.onlyStep_setUp hquiet (Direction.lawful hlaw).1).runAgents_cons l

/-- Inside a burst the agents' steps since the start tell where it is. -/
theorem eq_during_of_runAgents_eng {l : List Agent} (hhost : .host ∉ l)
    (hrun : runAgents (.eng :: l) (accepted (d.instr a n) s) = some u) (hbusy : u.cmdBusy = true) :
    u = d.during a n s (l.count .txch) (l.count .shift) (l.count .rxch) ∧
      Direction.InOrder n (l.count .txch) (l.count .shift) (l.count .rxch) ∧
      l.count .txch + l.count .shift + l.count .rxch = l.length := by
  obtain ⟨hn, halloc⟩ := Direction.lawful hlaw
  rw [runAgents_eng_accepted_burst hquiet hlaw] at hrun
  simpa using Direction.eq_during_of_runAgents hn halloc hhost hbusy (.start n) hrun

theorem at_of_runAgents_eng {l : List Agent} (hhost : .host ∉ l)
    (hrun : runAgents (.eng :: l) (accepted (d.instr a n) s) = some u) (hbusy : u.cmdBusy = true) :
    Direction.At d a n u (l.count .txch) (l.count .shift) (l.count .rxch) := by
  obtain ⟨hu, hin, -⟩ := eq_during_of_runAgents_eng hquiet hlaw hhost hrun hbusy
  rw [hu]
  exact Direction.at_during hin (Direction.lawful hlaw).2

/-- From the start of a burst a run can be continued to a completion, three steps a byte and one in all. -/
theorem exists_completion_burst :
    ∃ m : List Agent, .host ∉ m ∧ runAgents m (accepted (d.instr a n) s) = some (bigStep (d.instr a n) s) ∧
      m.length = 3 * n.toNat + 2 := by
  obtain ⟨hn, halloc⟩ := Direction.lawful hlaw
  obtain ⟨m, hm, hrun, hlen⟩ :=
    Direction.exists_completion (d := d) (s := s) hn halloc (3 * n.toNat + 1) (.start n) (by omega)
  exact ⟨.eng :: m, by simp [hm], (runAgents_eng_accepted_burst hquiet hlaw m).trans hrun, by simp [hlen]⟩

/-- A run of a burst begins with ENG's set-up step. -/
theorem eq_eng_cons_of_runAgents {l : List Agent} (hhost : .host ∉ l) (hne : l ≠ [])
    (hrun : runAgents l (accepted (d.instr a n) s) = some u) : ∃ m, l = .eng :: m ∧ .host ∉ m := by
  cases l with
  | nil => exact absurd rfl hne
  | cons ag m =>
    obtain ⟨hag, hm⟩ := List.ne_and_not_mem_of_not_mem_cons hhost
    obtain ⟨-, hen, -, -⟩ := runAgents_cons_eq_some.1 hrun
    obtain rfl := (Direction.onlyStep_setUp hquiet (Direction.lawful hlaw).1).only ag hag.symm hen
    exact ⟨m, rfl, hm⟩

end

/-- A byte that TXCH has just handed over is not yet exchanged. -/
theorem exchanged_of_last_txch {d : Direction} {a : Addr} {n : Len} {s u : State} (hquiet : quiet s)
    (hlaw : Lawful (d.instr a n) s) {l : List Agent} (hhost : .host ∉ l) (hlast : l.getLast? = some .txch)
    (hrun : runAgents (.eng :: l) (accepted (d.instr a n) s) = some u) (hbusy : u.cmdBusy = true) :
    l.count .shift + 1 ≤ l.count .txch := by
  obtain ⟨m, rfl⟩ := List.getLast?_eq_some_iff.1 hlast
  rw [← List.cons_append, runAgents_concat_eq_some] at hrun
  obtain ⟨v, hv, -, hact⟩ := hrun
  obtain ⟨b, -, rfl⟩ := txAct_eq_next.1 hact
  obtain ⟨-, hin, -⟩ := eq_during_of_runAgents_eng hquiet hlaw (fun h => hhost (by simp [h])) hv hbusy
  simpa using hin.exchanged

/-- Settles O30: inside the burst the schedule's counts are the numbers `At` speaks of. -/
theorem burstProgressCounts : Obligations.BurstProgressCounts := by
  intro s i a n hi hidle hquiet hlaw l u hhost hrun hbusy
  obtain ⟨d, rfl⟩ := exists_direction hi
  have hat := at_of_runAgents_eng hquiet hlaw hhost hrun hbusy
  obtain ⟨hrx, hxt, htn, -, -⟩ := hat.order
  obtain ⟨htc, hrc, ht, hx⟩ := hat.counts
  exact ⟨hrx, hxt, htn, by omega, by omega, htc, hrc⟩

/-- Settles O31: `BUSY` is told by the counts, and a byte just handed over by TXCH is not yet exchanged. -/
theorem transmitChannelFinishesFirst : Obligations.TransmitChannelFinishesFirst := by
  intro s i a n hi hidle hquiet hlaw l u hhost hrun hbusy
  obtain ⟨d, rfl⟩ := exists_direction hi
  have hat := at_of_runAgents_eng hquiet hlaw hhost hrun hbusy
  obtain ⟨hrx, hxt, htn, htx, hxr⟩ := hat.order
  have htxBusy : u.tx.busy = false ↔ l.count .txch = n.toNat := by
    rw [← Bool.not_eq_true, hat.tx_busy_iff]
    omega
  refine ⟨htxBusy, fun hdone hlast => ?_, fun hdone => ?_⟩
  · have ht := htxBusy.1 hdone
    have hx := exchanged_of_last_txch hquiet hlaw hhost hlast hrun hbusy
    exact ⟨by omega, by omega, hat.rx_busy_iff.2 (by omega)⟩
  · rw [← Bool.not_eq_true, hat.rx_busy_iff] at hdone
    exact ⟨by omega, by omega, by rw [← Bool.not_eq_true, hat.txf_iff]; omega,
      by rw [← Bool.not_eq_true, hat.rxf_iff]; omega⟩

/-- Inside a burst some agent has a step, and the run can go on to a completion after `3n + 2` steps in all. -/
theorem goesOn_of_runAgents_eng {d : Direction} {a : Addr} {n : Len} {s u : State} (hquiet : quiet s)
    (hlaw : Lawful (d.instr a n) s) {l : List Agent} (hhost : .host ∉ l)
    (hrun : runAgents (.eng :: l) (accepted (d.instr a n) s) = some u) (hbusy : u.cmdBusy = true) :
    (∃ ag v, ag ≠ .host ∧ enabled ag u = true ∧ act ag u = .next v) ∧
      ∃ m : List Agent, .host ∉ m ∧ runAgents m u = some (bigStep (d.instr a n) s) ∧
        l.length + m.length = 3 * n.toNat + 1 := by
  obtain ⟨hn, halloc⟩ := Direction.lawful hlaw
  have hat := at_of_runAgents_eng hquiet hlaw hhost hrun hbusy
  obtain ⟨rfl, hin, hlen⟩ := eq_during_of_runAgents_eng hquiet hlaw hhost hrun hbusy
  obtain ⟨hrx, hxt, htn, -, -⟩ := hat.order
  obtain ⟨m, hm, hall, hlen'⟩ := Direction.exists_completion (d := d) (s := s) hn halloc
    (3 * n.toNat + 1 - l.length) hin (by omega)
  exact ⟨hat.exists_step, m, hm, hall, by omega⟩

/-- Settles O32: at the acceptance and inside the burst an agent has a step, and the run can go on to a completion. -/
theorem burstIsNeverStuck : Obligations.BurstIsNeverStuck := by
  intro s i a n hi hidle hquiet hlaw l u hhost hrun
  obtain ⟨d, rfl⟩ := exists_direction hi
  obtain ⟨hn, halloc⟩ := Direction.lawful hlaw
  have hidleEnd : (bigStep (d.instr a n) s).cmdBusy = false := (bigStep_idle _ s).1
  by_cases hnil : l = []
  · subst hnil
    obtain rfl : accepted (d.instr a n) s = u := Option.some.inj hrun
    have hset := Direction.onlyStep_setUp (d := d) (a := a) hquiet hn
    obtain ⟨m, hm, hall, hlen⟩ := exists_completion_burst hquiet hlaw
    exact ⟨Nat.zero_le _, fun _ =>
      ⟨⟨_, _, by decide, hset.enabled, hset.act⟩, m, _, hm, hall, hidleEnd, by simp [hlen]⟩⟩
  · obtain ⟨m, rfl, hm⟩ := eq_eng_cons_of_runAgents hquiet hlaw hhost hnil hrun
    simp only [List.length_cons]
    cases hbusy : u.cmdBusy with
    | false =>
      rw [runAgents_eng_accepted_burst hquiet hlaw] at hrun
      obtain ⟨-, hlen⟩ := Direction.eq_bigStep_of_during hn halloc hm hbusy (.start n) hrun
      exact ⟨by omega, fun h => by cases h⟩
    | true =>
      obtain ⟨hstep, l', hl', hall, hlen⟩ := goesOn_of_runAgents_eng hquiet hlaw hm hrun hbusy
      exact ⟨by omega, fun _ => ⟨hstep, l', _, hl', hall, hidleEnd, by omega⟩⟩

end Sys2Proof.Machine
end

section
/-!
PROOFS, the chip reset in small steps (spec/43_chip_reset.md rules R140 and R141): the four kinds of state a run of
`CRST` passes through, whatever time passes between its steps.
-/

namespace Sys2Proof.Machine

/-- `CRST` in its low hold, `τ` periods after `RstFall` (rule R140). -/
def lowPhase (s : State) (τ : Nat) : State :=
  { emit .rstFall { accepted .crst s with rstl := .low } with ph := 1, timer := τ }

/-- `CRST` in its high hold, `τ` periods after `RstRise`, the low hold having lasted `low` (rule R140). -/
def highPhase (s : State) (low τ : Nat) : State :=
  { emit .rstRise { lowPhase s low with rstl := .high } with ph := 2, holdLow := low, timer := τ }

theorem passTime_lowPhase (d τ : Nat) (s : State) : passTime d (lowPhase s τ) = lowPhase s (τ + d) := rfl

theorem passTime_highPhase (d low τ : Nat) (s : State) :
    passTime d (highPhase s low τ) = highPhase s low (τ + d) := rfl

/-- The states of a run of `CRST` from `s`. -/
inductive ResetRun (s : State) : State → Prop
  | accepted : ResetRun s (accepted .crst s)
  | low (τ : Nat) : ResetRun s (lowPhase s τ)
  | high (low τ : Nat) (hlow : Config.tRstLowMin ≤ low) : ResetRun s (highPhase s low τ)
  | done (low high : Nat) (hlow : Config.tRstLowMin ≤ low) (hhigh : Config.tRstHighMin ≤ high) :
      ResetRun s (crstWith low high s)

/-- A move of the block itself: no turn of the host's, and no block reset. -/
def BlockMove (m : Move) : Prop := m ≠ .agent .host ∧ m ≠ .blockReset

namespace ResetRun
variable {s u v : State}

/-- `CRST` touches neither the data register nor the channels. -/
theorem quiet (h : ResetRun s u) (hquiet : quiet s) : Machine.quiet u := by
  cases h <;> exact hquiet

/-- Time shows only in the two holds. -/
theorem passTime (h : ResetRun s u) (d : Nat) : ResetRun s (passTime d u) := by
  cases h with
  | accepted => exact .accepted
  | low τ => exact .low (τ + d)
  | high low τ hlow => exact .high low (τ + d) hlow
  | done low high hlow hhigh => exact .done low high hlow hhigh

/-- ENG goes on to the next phase, out of a hold only when its bound has been reached. -/
theorem eng (h : ResetRun s u) (hen : enabled .eng u = true) (hact : act .eng u = .next v) : ResetRun s v := by
  cases h with
  | accepted =>
    cases hact
    exact .low 0
  | low τ =>
    cases hact
    exact .high τ 0 (of_decide_eq_true hen)
  | high low τ hlow =>
    cases hact
    exact .done low τ hlow (of_decide_eq_true hen)
  | done => cases hen

theorem runMove (h : ResetRun s u) (hquiet : Machine.quiet s) {m : Move} (hm : BlockMove m)
    (hrun : runMove m u = some v) : ResetRun s v := by
  cases m with
  | agent ag =>
    obtain ⟨hen, hact⟩ := runMove_agent_eq_some.1 hrun
    obtain ⟨htxf, -, htx, hrx, -, -⟩ := h.quiet hquiet
    obtain ⟨rfl, -⟩ | ⟨-, hfull, -⟩ := enabled_of_channels_idle htx hrx (fun hag => hm.1 (hag ▸ rfl)) hen
    · exact h.eng hen hact
    · simp [htxf] at hfull
  | pass d =>
    cases hrun
    exact h.passTime d
  | blockReset => exact absurd rfl hm.2

theorem runMoves (h : ResetRun s u) (hquiet : Machine.quiet s) {l : List Move} (hl : ∀ m ∈ l, BlockMove m)
    (hrun : runMoves l u = some v) : ResetRun s v := by
  induction l generalizing u with
  | nil =>
    cases hrun
    exact h
  | cons m l ih =>
    obtain ⟨hm, hl⟩ := List.forall_mem_cons.1 hl
    obtain ⟨w, hw, hrest⟩ := Option.bind_eq_some_iff.1 hrun
    exact ih (h.runMove hquiet hm hw) hl hrest

/-- A run that has completed stands where the reset sequence ends, with two holds above their bounds. -/
theorem eq_crstWith (h : ResetRun s u) (hdone : u.cmdBusy = false) :
    ∃ low high, Config.tRstLowMin ≤ low ∧ Config.tRstHighMin ≤ high ∧ u = crstWith low high s := by
  cases h with
  | accepted | low | high => cases hdone
  | done low high hlow hhigh => exact ⟨low, high, hlow, hhigh, rfl⟩

end ResetRun

/-- Any two lengths above the bounds are those of a run. -/
theorem runMoves_crst {low high : Nat} (hlow : Config.tRstLowMin ≤ low) (hhigh : Config.tRstHighMin ≤ high)
    (s : State) :
    runMoves [.agent .eng, .pass low, .agent .eng, .pass high, .agent .eng] (accepted .crst s) =
      some (crstWith low high s) := by
  have hfall : runMove (.agent .eng) (accepted .crst s) = some (lowPhase s 0) := rfl
  have hrise : runMove (.agent .eng) (lowPhase s low) = some (highPhase s low 0) :=
    runMove_agent_eq_some.2 ⟨decide_eq_true hlow, rfl⟩
  have hdone : runMove (.agent .eng) (highPhase s low high) = some (crstWith low high s) :=
    runMove_agent_eq_some.2 ⟨decide_eq_true hhigh, rfl⟩
  have hpassLow : runMove (.pass low) (lowPhase s 0) = some (lowPhase s low) := by
    rw [runMove, passTime_lowPhase, Nat.zero_add]
  have hpassHigh : runMove (.pass high) (highPhase s low 0) = some (highPhase s low high) := by
    rw [runMove, passTime_highPhase, Nat.zero_add]
  simp only [runMoves, hfall, hpassLow, hrise, hpassHigh, hdone, Option.bind_some]

/-- Settles O33: a run of `CRST` stays in its four kinds of state; two lengths give a run; the big step draws two. -/
theorem chipResetKeepsBothHolds : Obligations.ChipResetKeepsBothHolds := by
  refine fun s hidle hcs hquiet => ⟨fun l u hhost hreset hrun hdone => ?_, fun low high hlow hhigh =>
    runMoves_crst hlow hhigh s, lowHold s, highHold s, tRstLowMin_le_lowHold s, tRstHighMin_le_highHold s,
    exec_eq_next.2 ⟨hidle, hcs, rfl⟩⟩
  have hl : ∀ m ∈ l, BlockMove m := fun m hm => ⟨fun h => hhost (h ▸ hm), fun h => hreset (h ▸ hm)⟩
  exact (ResetRun.accepted.runMoves hquiet hl hrun).eq_crstWith hdone

end Sys2Proof.Machine
end

section
/-!
PROOFS, the invariant inside a command (rules R33, R42, R92, R93, R128, R130, R174 and R190): from a state that meets it
and holds a command, every enabled step of the block's agents has a next state that meets it and is one step nearer to
the command's completion, and some agent has one unless a hold of `CRST` is running. First the invariant's part about
the bus, then one lemma per kind of command.
-/

namespace Sys2Proof.Machine

/-! ## The part of the invariant about the bus -/

/-- The lines, the history and the recorded holds keep rules R92, R93, R141 and R174. -/
structure BusOk (s : State) : Prop where
  history : HistoryOk s
  selected : SelectedAfterReset s
  holds : HoldsKept s

theorem BlockInv.bus {s : State} (h : BlockInv s) : BusOk s := ⟨h.history, h.selected, h.holds⟩

/-- What `BusOk` looks at, beside the last phase of a chip reset. -/
def busFields (s : State) : List BusEvent × Level × Level × Bool × Nat × Nat :=
  (s.trace, s.cs, s.rstl, s.rstd, s.holdLow, s.holdHigh)

/-- The last phase of a chip reset, in which RSTn has gone low and then high. -/
def lastPhase (s : State) : Prop := s.cur = some .crst ∧ s.ph = 2

/-- A step that leaves the bus alone and enters no last phase. -/
theorem BusOk.of_busFields {s t : State} (h : BusOk s) (hbus : busFields t = busFields s)
    (hlast : lastPhase t → lastPhase s) : BusOk t := by
  simp only [busFields, Prod.mk.injEq] at hbus
  obtain ⟨htrace, hcs, hrstl, hrstd, hlow, hhigh⟩ := hbus
  obtain ⟨⟨seen, hpins, hset, hph⟩, hsel, hholds, hholdLow⟩ := h
  refine ⟨⟨seen, by rw [htrace, hcs, hrstl, hpins], hrstd ▸ hset, fun hc hp => ?_⟩, ?_, ?_, fun hc hp => ?_⟩
  · obtain ⟨hc', hp'⟩ := hlast ⟨hc, hp⟩
    exact hph hc' hp'
  · rwa [SelectedAfterReset, htrace, hrstd]
  · rwa [hrstd, hlow, hhigh]
  · obtain ⟨hc', hp'⟩ := hlast ⟨hc, hp⟩
    exact hlow ▸ hholdLow hc' hp'

/-- A step that emits one event the discipline allows, where the reset sequence has run or not as before (rule R93). -/
theorem BusOk.emits {s t : State} (h : BusOk s) {e : BusEvent} (htrace : t.trace = s.trace ++ [e])
    (hpins : ∀ seen : Bool, (s.rstd = true → seen = true) →
      (⟨s.cs, s.rstl, seen⟩ : Pins).after e = some ⟨t.cs, t.rstl, seen⟩)
    (hsel : e = .csFall → s.rstd = true) (hrstd : t.rstd = s.rstd) (hlow : t.holdLow = s.holdLow)
    (hhigh : t.holdHigh = s.holdHigh) (hlast : ¬ lastPhase t) : BusOk t := by
  obtain ⟨⟨seen, hall, hset, -⟩, hsel', hholds, -⟩ := h
  refine ⟨⟨seen, ?_, hrstd ▸ hset, fun hc hp => absurd ⟨hc, hp⟩ hlast⟩, fun hmem => ?_, ?_,
    fun hc hp => absurd ⟨hc, hp⟩ hlast⟩
  · rw [htrace, afterAll_concat hall, hpins seen hset]
  · rw [htrace, List.mem_append, List.mem_singleton] at hmem
    rw [hrstd]
    exact hmem.elim hsel' fun h => hsel h.symm
  · rwa [hrstd, hlow, hhigh]

/-! ## How a state meets the invariant -/

/-- A completion in a quiet block with the reset line high. -/
theorem blockInv_complete {s : State} {c : Completion} (hmem : s.mem.wf) (hbus : BusOk (complete c s))
    (hquiet : quiet s) (hrstl : s.rstl = .high) : BlockInv (complete c s) where
  memory := hmem
  history := hbus.history
  selected := hbus.selected
  holds := hbus.holds
  txBusy := by
    obtain ⟨-, -, hbusy, -, hcount, -⟩ := hquiet
    simp [BusyIffCount, hbusy, hcount]
  rxBusy := by
    obtain ⟨-, -, -, hbusy, -, hcount⟩ := hquiet
    simp [BusyIffCount, hbusy, hcount]
  idle _ := ⟨hquiet, rfl, rfl, hrstl⟩
  running h := by cases h

/-- A state inside a command. -/
theorem blockInv_running {s : State} {i : Instr} (hmem : s.mem.wf) (hbus : BusOk s) (htx : BusyIffCount s.tx)
    (hrx : BusyIffCount s.rx) (hbusy : s.cmdBusy = true) (hcur : s.cur = some i) (hrun : RunningOk i s) :
    BlockInv s where
  memory := hmem
  history := hbus.history
  selected := hbus.selected
  holds := hbus.holds
  txBusy := htx
  rxBusy := hrx
  idle h := by rw [hbusy] at h; cases h
  running _ := ⟨i, hcur, hrun⟩

/-! ## How many steps are left (rules R130 and R190) -/

theorem stepsLeft_of_cur_none {s : State} (hcur : s.cur = none) : stepsLeft s = 0 := by
  simp [stepsLeft, hcur]

theorem stepsLeft_of_ph_zero {s : State} {i : Instr} (hcur : s.cur = some i) (hph : s.ph = 0) :
    stepsLeft s = smallSteps i := by
  simp [stepsLeft, hcur, hph]

theorem ByteCommand.stepsLeft_eq {i : Instr} {o : Byte} {c : Byte → Completion} (h : ByteCommand i o c) {s : State}
    (hcur : s.cur = some i) (hph : s.ph = 1) : stepsLeft s = s.txf.toNat + 1 := by
  cases h <;> simp [stepsLeft, hcur, hph]

theorem Direction.stepsLeft_eq {d : Direction} {a : Addr} {n : Len} {s : State} (hcur : s.cur = some (d.instr a n))
    (hph : s.ph = 1) : stepsLeft s = burstLeft s := by
  cases d <;> simp [stepsLeft, hcur, hph, Direction.instr]

theorem stepsLeft_crst_one {s : State} (hcur : s.cur = some .crst) (hph : s.ph = 1) :
    stepsLeft s = if Config.tRstLowMin ≤ s.timer then 3 else 4 := by
  simp [stepsLeft, hcur, hph]

theorem stepsLeft_crst_two {s : State} (hcur : s.cur = some .crst) (hph : s.ph = 2) :
    stepsLeft s = if Config.tRstHighMin ≤ s.timer then 1 else 2 := by
  simp [stepsLeft, hcur, hph]

/-- From `s` to `t` the running command has come one step nearer to its completion, and the invariant holds. -/
structure Advances (s t : State) : Prop where
  inv : BlockInv t
  left : stepsLeft t + 1 = stepsLeft s

/-- What there is to show of a state inside a command: every enabled step goes on, and there is one or a hold runs. -/
structure GoesOn (s : State) : Prop where
  advances : ∀ ag, ag ≠ .host → enabled ag s = true → ∃ t, act ag s = .next t ∧ Advances s t
  exists_enabled : (∃ ag, ag ≠ .host ∧ enabled ag s = true) ∨ holding s = true

theorem OnlyStep.goesOn {ag : Agent} {s t : State} (h : OnlyStep ag s t) (hag : ag ≠ .host) (hadv : Advances s t) :
    GoesOn s where
  advances other hother hen := by
    obtain rfl := h.only other hother hen
    exact ⟨t, h.act, hadv⟩
  exists_enabled := .inl ⟨ag, hag, h.enabled⟩

/-- In a quiet block a command whose ENG is ready goes on with ENG's step. -/
theorem goesOn_of_quiet {s t : State} {i : Instr} (hquiet : quiet s) (hcur : s.cur = some i)
    (hready : engReady i s.ph s = true) (ht : engAct i s.ph s = t) (hadv : Advances s t) : GoesOn s := by
  obtain ⟨htxf, -, htx, hrx, -, -⟩ := hquiet
  exact (onlyStep_eng hcur hready ht htx hrx htxf).goesOn (by decide) hadv

/-! ## The chip-select commands (rules R90 and R91) -/

theorem goesOn_sel {s : State} (h : BlockInv s) (hcur : s.cur = some .sel) (hrun : RunningOk .sel s) : GoesOn s := by
  obtain ⟨⟨hcs, hrstd⟩, hrstl, hph, hquiet⟩ := hrun
  refine goesOn_of_quiet hquiet hcur rfl rfl ⟨blockInv_complete h.memory ?_ hquiet hrstl, ?_⟩
  · refine h.bus.emits rfl (fun seen hseen => ?_) (fun _ => hrstd) rfl rfl rfl (fun hl => by cases hl.1)
    exact after_csFall_eq_some.2 ⟨⟨hcs, hrstl, hseen hrstd⟩, rfl⟩
  · rw [stepsLeft_of_ph_zero hcur hph]
    rfl

theorem goesOn_desel {s : State} (h : BlockInv s) (hcur : s.cur = some .desel) (hrun : RunningOk .desel s) :
    GoesOn s := by
  obtain ⟨hcs, hrstl, hph, hquiet⟩ := hrun
  refine goesOn_of_quiet hquiet hcur rfl rfl ⟨blockInv_complete h.memory ?_ hquiet hrstl, ?_⟩
  · refine h.bus.emits rfl (fun seen _ => ?_) nofun rfl rfl rfl (fun hl => by cases hl.1)
    exact after_csRise_eq_some.2 ⟨hcs, rfl⟩
  · rw [stepsLeft_of_ph_zero hcur hph]
    rfl

/-! ## The byte commands (rules R100 and R101) -/

theorem ByteCommand.runningOk_iff {i : Instr} {o : Byte} {c : Byte → Completion} (h : ByteCommand i o c) {s : State} :
    RunningOk i s ↔ s.cs = .low ∧ s.rstl = .high ∧ ByteOk s := by
  cases h <;> rfl

theorem ByteCommand.ne_crst {i : Instr} {o : Byte} {c : Byte → Completion} (h : ByteCommand i o c) : i ≠ .crst := by
  cases h <;> simp

/-- A channel with a count of 0 is idle (rule R33). -/
theorem BusyIffCount.busy_eq_false {c : Channel} (h : BusyIffCount c) (hcount : c.count = 0) : c.busy = false := by
  by_contra hbusy
  have hpos := h.1 (eq_true_of_ne_false hbusy)
  simp [hcount] at hpos

theorem inFlight_eq_zero {s : State} : inFlight s = 0 ↔ s.txf = false ∧ s.rxf = false := by
  unfold inFlight
  cases s.txf <;> cases s.rxf <;> simp

theorem inFlight_eq_one {s : State} :
    inFlight s = 1 ↔ (s.txf = true ∧ s.rxf = false) ∨ (s.txf = false ∧ s.rxf = true) := by
  unfold inFlight
  cases s.txf <;> cases s.rxf <;> simp

/-- SHIFT's exchange inside a span keeps the discipline (rules R92 and R102). -/
theorem busOk_shiftAct {s : State} (h : BusOk s) (hcs : s.cs = .low) (hlast : ¬ lastPhase s) : BusOk (shiftAct s) :=
  h.emits rfl (fun _ _ => after_xchg_eq_some.2 ⟨⟨hcs, hcs⟩, rfl⟩) nofun rfl rfl rfl hlast

theorem not_lastPhase_of_cur {s : State} {i : Instr} (hcur : s.cur = some i) (hi : i ≠ .crst) : ¬ lastPhase s :=
  fun h => hi (Option.some.inj (hcur.symm.trans h.1))

section
variable {i : Instr} {o : Byte} {c : Byte → Completion} (hi : ByteCommand i o c) {s : State} (h : BlockInv s)
  (hbusy : s.cmdBusy = true) (hcur : s.cur = some i) (hrun : RunningOk i s)
include hi h hcur hrun

/-- With the byte in `RXD` ENG takes it and completes. -/
theorem goesOn_byte_take (hph : s.ph = 1) (htxf : s.txf = false) (hrxf : s.rxf = true) : GoesOn s := by
  obtain ⟨hcs, hrstl, htxc, hrxc, -⟩ := hi.runningOk_iff.1 hrun
  have htx := h.txBusy.busy_eq_false htxc
  have hrx := h.rxBusy.busy_eq_false hrxc
  have hready : engReady i s.ph s = true := by rw [hph, hi.engReady_one, hrxf]
  have hact : engAct i s.ph s = complete (c s.rxd) (drRead s) := by rw [hph, hi.engAct_one]
  refine (onlyStep_eng hcur hready hact htx hrx htxf).goesOn (by decide)
    ⟨blockInv_complete h.memory ?_ ⟨htxf, rfl, htx, hrx, htxc, hrxc⟩ hrstl, ?_⟩
  · exact h.bus.of_busFields rfl fun hl => by cases hl.1
  · rw [hi.stepsLeft_eq hcur hph, htxf]
    rfl

include hbusy

/-- Before the byte is handed over ENG writes it to the data register. -/
theorem goesOn_byte_load (hph : s.ph = 0) (htxf : s.txf = false) (hrxf : s.rxf = false) : GoesOn s := by
  obtain ⟨hcs, hrstl, htxc, hrxc, -⟩ := hi.runningOk_iff.1 hrun
  have hready : engReady i s.ph s = true := by simp [hph, hi.engReady_zero, htxf]
  have hact : engAct i s.ph s = { drWrite o s with ph := 1 } := by rw [hph, hi.engAct_zero]
  refine (onlyStep_eng hcur hready hact (h.txBusy.busy_eq_false htxc) (h.rxBusy.busy_eq_false hrxc) htxf).goesOn
    (by decide) ⟨blockInv_running h.memory ?_ h.txBusy h.rxBusy hbusy hcur ?_, ?_⟩
  · exact h.bus.of_busFields rfl fun hl => by cases hl.2
  · exact hi.runningOk_iff.2 ⟨hcs, hrstl, htxc, hrxc, .inr ⟨rfl, by simp [inFlight, drWrite, hrxf]⟩⟩
  · rw [hi.stepsLeft_eq (s := { drWrite o s with ph := 1 }) hcur rfl, stepsLeft_of_ph_zero hcur hph]
    cases hi <;> rfl

/-- With the byte in `TXD` SHIFT exchanges it. -/
theorem goesOn_byte_exchange (hph : s.ph = 1) (htxf : s.txf = true) (hrxf : s.rxf = false) : GoesOn s := by
  obtain ⟨hcs, hrstl, htxc, hrxc, -⟩ := hi.runningOk_iff.1 hrun
  have hwait : engReady i s.ph s = false := by rw [hph, hi.engReady_one, hrxf]
  have hlast := not_lastPhase_of_cur hcur hi.ne_crst
  refine (onlyStep_shift hcur hwait (h.txBusy.busy_eq_false htxc) (h.rxBusy.busy_eq_false hrxc) htxf hrxf).goesOn
    (by decide) ⟨blockInv_running h.memory (busOk_shiftAct h.bus hcs hlast) h.txBusy h.rxBusy hbusy hcur ?_, ?_⟩
  · exact hi.runningOk_iff.2 ⟨hcs, hrstl, htxc, hrxc, .inr ⟨hph, by simp [inFlight]⟩⟩
  · rw [hi.stepsLeft_eq (s := shiftAct s) hcur hph, hi.stepsLeft_eq hcur hph, htxf]
    rfl

theorem goesOn_byte : GoesOn s := by
  obtain ⟨-, -, -, -, hphase⟩ := hi.runningOk_iff.1 hrun
  obtain ⟨hph, hflight⟩ | ⟨hph, hflight⟩ := hphase
  · obtain ⟨htxf, hrxf⟩ := inFlight_eq_zero.1 hflight
    exact goesOn_byte_load hi h hbusy hcur hrun hph htxf hrxf
  · obtain ⟨htxf, hrxf⟩ | ⟨htxf, hrxf⟩ := inFlight_eq_one.1 hflight
    · exact goesOn_byte_exchange hi h hbusy hcur hrun hph htxf hrxf
    · exact goesOn_byte_take hi h hcur hrun hph htxf hrxf

end

/-! ## The bursts (rules R115 to R124 and R128) -/

namespace Direction

/-- What the channel registers hold inside a burst (rules R116, R117, R119 and R120). -/
def Channels : Direction → Addr → Len → State → Prop
  | .read => ReadChannels
  | .write => WriteChannels

theorem runningOk_iff {d : Direction} {a : Addr} {n : Len} {s : State} :
    RunningOk (d.instr a n) s ↔ Lawful (d.instr a n) s ∧ s.rstl = .high ∧ BurstOk n (d.Channels a n s) s := by
  cases d <;> rfl


section
variable {d : Direction} {a : Addr} {n : Len} {k : Nat}

theorem busyIffCount_tx (hk : k ≤ n.toNat) : BusyIffCount (d.tx a n k) := by
  have hcount : (d.tx a n k).count.toNat = n.toNat - k := toNat_len_sub hk
  rw [BusyIffCount, hcount]
  simp [tx]

theorem busyIffCount_rx (hk : k ≤ n.toNat) : BusyIffCount (d.rx a n k) := by
  have hcount : (d.rx a n k).count.toNat = n.toNat - k := toNat_len_sub hk
  rw [BusyIffCount, hcount]
  simp [rx]

theorem len_sub_left {c : Len} (hc : c.toNat ≤ n.toNat) : n - BitVec.ofNat 24 (n.toNat - c.toNat) = c := by
  apply BitVec.eq_of_toNat_eq
  rw [toNat_len_sub (Nat.sub_le _ _)]
  omega

theorem busy_left {c : Channel} (hbusy : BusyIffCount c) (hc : c.count.toNat ≤ n.toNat) :
    decide (n.toNat - c.count.toNat < n.toNat) = c.busy := by
  unfold BusyIffCount at hbusy
  rw [Bool.eq_iff_iff, hbusy, decide_eq_true_iff]
  omega

end

theorem channel_eq_iff {c : Channel} {incrR incrW : Bool} {raddr waddr : Loc} :
    c = ⟨incrR, incrW, raddr, waddr, c.count, c.busy⟩ ↔
      c.incrR = incrR ∧ c.incrW = incrW ∧ c.raddr = raddr ∧ c.waddr = waddr := by
  cases c
  simp

/-- The two channels of a started burst, by their counts. -/
theorem channels_iff {d : Direction} {a : Addr} {n : Len} {s : State} (htx : BusyIffCount s.tx)
    (hrx : BusyIffCount s.rx) (htn : s.tx.count.toNat ≤ n.toNat) (hrn : s.rx.count.toNat ≤ n.toNat) :
    d.Channels a n s ↔
      s.tx = d.tx a n (n.toNat - s.tx.count.toNat) ∧ s.rx = d.rx a n (n.toNat - s.rx.count.toNat) := by
  simp only [tx, rx, txStart, rxStart, len_sub_left htn, len_sub_left hrn, busy_left htx htn, busy_left hrx hrn,
    channel_eq_iff, and_assoc]
  cases d <;> simp [Channels, ReadChannels, WriteChannels, source, sink]

section
variable {d : Direction} {a : Addr} {n : Len} {s : State} {t x r : Nat}

/-- The invariant's account of a started burst says how far each agent is. -/
theorem exists_at (h : BlockInv s) (hcur : s.cur = some (d.instr a n)) (hph : s.ph = 1)
    (halloc : BufferAllocated s.params a n) (hchannels : d.Channels a n s) (hrn : s.rx.count.toNat ≤ n.toNat)
    (hbehind : s.rx.count.toNat = s.tx.count.toNat + inFlight s) : ∃ t x r, At d a n s t x r := by
  obtain ⟨htx, hrx⟩ := (channels_iff h.txBusy h.rxBusy (by omega) hrn).1 hchannels
  unfold inFlight at hbehind
  have htxf := Bool.toNat_le s.txf
  have hrxf := Bool.toNat_le s.rxf
  refine ⟨_, n.toNat - s.rx.count.toNat + s.rxf.toNat, _, ⟨by omega, by omega, Nat.sub_le _ _, by omega, by omega⟩,
    hcur, hph, halloc, htx, hrx, ?_, ?_⟩
  · cases hf : s.txf with
    | false =>
      rw [hf, Bool.toNat_false] at hbehind
      exact (decide_eq_false (by omega)).symm
    | true =>
      rw [hf, Bool.toNat_true] at hbehind
      exact (decide_eq_true (by omega)).symm
  · cases hf : s.rxf <;> simp

theorem At.burstOk (h : At d a n s t x r) : BurstOk n (d.Channels a n s) s := by
  obtain ⟨hrx, hxt, htn, htx, hxr⟩ := h.order
  obtain ⟨htc, hrc, ht, hx⟩ := h.counts
  have htxBusy : BusyIffCount s.tx := h.tx ▸ busyIffCount_tx htn
  have hrxBusy : BusyIffCount s.rx := h.rx ▸ busyIffCount_rx (by omega)
  refine .inr ⟨h.ph, (channels_iff htxBusy hrxBusy (by omega) (by omega)).2 ⟨?_, ?_⟩, by omega,
    by unfold inFlight; omega⟩
  · rw [htc, Nat.sub_sub_self htn, h.tx]
  · rw [hrc, Nat.sub_sub_self (by omega), h.rx]

theorem At.stepsLeft_add (h : At d a n s t x r) : stepsLeft s + (t + x + r) = 3 * n.toNat + 1 := by
  obtain ⟨-, -, htn, -, -⟩ := h.order
  obtain ⟨htc, -, ht, hx⟩ := h.counts
  rw [stepsLeft_eq h.cur h.ph, burstLeft, htc]
  omega

/-- A started burst that keeps the invariant's other parts, one step on. -/
theorem At.advances {u : State} {t' x' r' : Nat} (hs : At d a n s t x r) (hu : At d a n u t' x' r')
    (hsum : t' + x' + r' = t + x + r + 1) (hmem : u.mem.wf) (hbus : BusOk u) (hbusy : u.cmdBusy = true)
    (hlaw : Lawful (d.instr a n) u) (hrstl : u.rstl = .high) : Advances s u := by
  have htn := hu.order.sent
  have hrn : r' ≤ n.toNat := (hu.order.received.trans hu.order.exchanged).trans htn
  refine ⟨blockInv_running hmem hbus (hu.tx ▸ busyIffCount_tx htn) (hu.rx ▸ busyIffCount_rx hrn) hbusy hu.cur
    (runningOk_iff.2 ⟨hlaw, hrstl, hu.burstOk⟩), ?_⟩
  have hleft := hs.stepsLeft_add
  have hleft' := hu.stepsLeft_add
  omega

/-- With every byte taken a burst is quiet. -/
theorem At.quiet (h : At d a n s n.toNat n.toNat n.toNat) : quiet s := by
  refine ⟨by simp [h.txf], by simp [h.rxf], ?_, ?_, ?_, ?_⟩
  · simp [h.tx, Direction.tx]
  · simp [h.rx, Direction.rx]
  · simp [h.tx, Direction.tx, txStart]
  · simp [h.rx, Direction.rx, rxStart]

end

end Direction

/-- A channel's step leaves the bus, the command and the parameters alone, and memory canonical. -/
theorem act_channel_frame {ag : Agent} {s u : State} (hag : ag = .txch ∨ ag = .rxch) (hact : act ag s = .next u) :
    busFields u = busFields s ∧ u.cmdBusy = s.cmdBusy ∧ u.cur = s.cur ∧ u.ph = s.ph ∧ u.params = s.params ∧
      (s.mem.wf → u.mem.wf) := by
  obtain rfl | rfl := hag
  · obtain ⟨v, -, rfl⟩ := txAct_eq_next.1 hact
    exact ⟨rfl, rfl, rfl, rfl, rfl, id⟩
  · obtain ⟨v, hv, rfl⟩ := rxAct_eq_next.1 hact
    obtain ⟨b, -, -, rfl⟩ | ⟨-, rfl⟩ := locWrite_eq_ok.1 hv
    · exact ⟨rfl, rfl, rfl, rfl, rfl, fun hwf => memWrite_wf (s := drRead s) hwf b s.rxd⟩
    · exact ⟨rfl, rfl, rfl, rfl, rfl, id⟩

section
variable {d : Direction} {a : Addr} {n : Len} {s : State} (h : BlockInv s) (hbusy : s.cmdBusy = true)
  (hlaw : Lawful (d.instr a n) s) (hrstl : s.rstl = .high)
include h hbusy hlaw hrstl

/-- A channel's step keeps what is said of a burst. -/
theorem advances_of_act_channel {ag : Agent} {u : State} {t x r t' x' r' : Nat} (hag : ag = .txch ∨ ag = .rxch)
    (hact : act ag s = .next u) (hs : Direction.At d a n s t x r) (hu : Direction.At d a n u t' x' r')
    (hsum : t' + x' + r' = t + x + r + 1) : Advances s u := by
  obtain ⟨hbus, hbusy', hcur, hph, hparams, hmem⟩ := act_channel_frame hag hact
  have hbusOk : BusOk u := h.bus.of_busFields hbus fun hl => by rwa [lastPhase, hcur, hph] at hl
  simp only [busFields, Prod.mk.injEq] at hbus
  obtain ⟨-, hcs, hrstl', -⟩ := hbus
  refine hs.advances hu hsum (hmem h.memory) hbusOk (hbusy'.trans hbusy) ?_ (hrstl'.trans hrstl)
  rw [lawful_burst_iff] at hlaw ⊢
  rwa [hparams, hcs]

theorem Direction.At.goesOn {t x r : Nat} (hat : Direction.At d a n s t x r) : GoesOn s := by
  refine ⟨fun ag hag hen => ?_, .inl hat.exists_enabled⟩
  have hi : d.instr a n ≠ .crst := by cases d <;> simp [Direction.instr]
  cases ag with
  | host => exact absurd rfl hag
  | txch =>
    obtain ⟨ht, hx⟩ := hat.enabled_txch_iff.1 hen
    obtain ⟨u, hact, hu⟩ := hat.act_txch ht hx
    exact ⟨u, hact, advances_of_act_channel h hbusy hlaw hrstl (.inl rfl) hact hat hu (by omega)⟩
  | rxch =>
    obtain ⟨u, hact, hu⟩ := hat.act_rxch (hat.enabled_rxch_iff.1 hen)
    exact ⟨u, hact, advances_of_act_channel h hbusy hlaw hrstl (.inr rfl) hact hat hu (by omega)⟩
  | shift =>
    obtain ⟨hx, hr⟩ := hat.enabled_shift_iff.1 hen
    obtain ⟨-, -, -, hcs⟩ := lawful_burst_iff.1 hlaw
    have hbus := busOk_shiftAct h.bus hcs (not_lastPhase_of_cur hat.cur hi)
    exact ⟨_, rfl, hat.advances (hat.act_shift hx hr) (by omega) h.memory hbus hbusy
      (lawful_burst_iff.2 (lawful_burst_iff.1 hlaw)) hrstl⟩
  | eng =>
    obtain rfl := hat.enabled_eng_iff.1 hen
    obtain ⟨hrx, hxt, htn, -, -⟩ := hat.order
    obtain rfl : x = n.toNat := by omega
    obtain rfl : t = n.toNat := by omega
    refine ⟨_, Direction.act_eng_started hat.cur hat.ph, blockInv_complete h.memory ?_ hat.quiet hrstl, ?_⟩
    · exact h.bus.of_busFields rfl fun hl => by cases hl.1
    · have hleft := hat.stepsLeft_add
      rw [stepsLeft_of_cur_none (complete_cur _ _)]
      omega

/-- ENG's set-up step leads to the started burst with no byte moved. -/
theorem goesOn_burst_setUp (hcur : s.cur = some (d.instr a n)) (hph : s.ph = 0) (hquiet : quiet s) : GoesOn s := by
  obtain ⟨hn, halloc⟩ := Direction.lawful hlaw
  obtain ⟨htxf, hrxf, -⟩ := id hquiet
  have hact : engAct (d.instr a n) s.ph s = { s with tx := d.tx a n 0, rx := d.rx a n 0, ph := 1 } := by
    rw [hph, Direction.engAct_zero, Direction.tx_zero hn, Direction.rx_zero hn]
  have hat : Direction.At d a n { s with tx := d.tx a n 0, rx := d.rx a n 0, ph := 1 } 0 0 0 :=
    ⟨.start n, hcur, rfl, halloc, rfl, rfl, htxf, hrxf⟩
  refine goesOn_of_quiet hquiet hcur (by rw [hph, Direction.engReady_zero]) hact ⟨?_, ?_⟩
  · refine blockInv_running h.memory (h.bus.of_busFields rfl fun hl => by cases hl.2)
      (Direction.busyIffCount_tx (Nat.zero_le _)) (Direction.busyIffCount_rx (Nat.zero_le _)) hbusy hcur ?_
    exact Direction.runningOk_iff.2 ⟨lawful_burst_iff.2 (lawful_burst_iff.1 hlaw), hrstl, hat.burstOk⟩
  · have hleft := hat.stepsLeft_add
    have hsmall : smallSteps (d.instr a n) = 3 * n.toNat + 2 := by cases d <;> rfl
    rw [stepsLeft_of_ph_zero hcur hph, hsmall]
    omega

end

theorem goesOn_burst {d : Direction} {a : Addr} {n : Len} {s : State} (h : BlockInv s) (hbusy : s.cmdBusy = true)
    (hcur : s.cur = some (d.instr a n)) (hrun : RunningOk (d.instr a n) s) : GoesOn s := by
  obtain ⟨hlaw, hrstl, ⟨hph, hquiet⟩ | ⟨hph, hchannels, hrn, hbehind⟩⟩ := Direction.runningOk_iff.1 hrun
  · exact goesOn_burst_setUp h hbusy hlaw hrstl hcur hph hquiet
  · obtain ⟨t, x, r, hat⟩ := Direction.exists_at h hcur hph (Direction.lawful hlaw).2 hchannels hrn hbehind
    exact hat.goesOn h hbusy hlaw hrstl

/-! ## The chip reset (rules R140 and R141) -/

theorem holding_iff {s : State} : holding s = true ↔ s.cur = some .crst ∧ (s.ph = 1 ∨ s.ph = 2) := by
  simp [holding]

theorem enabled_eng_of_cur {s : State} {i : Instr} (hcur : s.cur = some i) : enabled .eng s = engReady i s.ph s := by
  simp [enabled, hcur]

/-- In a hold that has not reached its bound none of the block's agents has a step: time has to pass. -/
theorem goesOn_of_holding {s : State} (hquiet : quiet s) (hhold : holding s = true)
    (hwait : engReady .crst s.ph s = false) : GoesOn s where
  advances ag hag hen := by
    obtain ⟨hcur, -⟩ := holding_iff.1 hhold
    obtain ⟨htxf, -, htx, hrx, -, -⟩ := hquiet
    obtain ⟨rfl, -⟩ | ⟨-, hfull, -⟩ := enabled_of_channels_idle htx hrx hag hen
    · rw [enabled_eng_of_cur hcur, hwait] at hen
      cases hen
    · simp [htxf] at hfull
  exists_enabled := .inr hhold

section
variable {s : State} (h : BlockInv s) (hbusy : s.cmdBusy = true) (hcur : s.cur = some .crst)
  (hrun : RunningOk .crst s)
include h hcur hrun

/-- `RSTD` is set and `CRST` completes: RSTn has gone low and high, and both holds have reached their bounds. -/
theorem goesOn_crst_complete (hph : s.ph = 2) (hrstl : s.rstl = .high) (htime : Config.tRstHighMin ≤ s.timer) :
    GoesOn s := by
  obtain ⟨hcs, hquiet, -⟩ := hrun
  obtain ⟨seen, hpins, -, hseen⟩ := h.history
  obtain rfl := hseen hcur hph
  have hbus : BusOk (engAct .crst 2 s) :=
    ⟨⟨true, hpins, fun _ => rfl, fun _ _ => rfl⟩, fun _ => rfl, fun _ => ⟨h.holds.2 hcur hph, htime⟩, nofun⟩
  have hinv : BlockInv (engAct .crst 2 s) := blockInv_complete h.memory hbus hquiet hrstl
  refine goesOn_of_quiet hquiet hcur (by rw [hph]; exact decide_eq_true htime) (by rw [hph]) ⟨hinv, ?_⟩
  rw [stepsLeft_crst_two hcur hph, if_pos htime]
  rfl

include hbusy

/-- `RstFall`, and the low hold begins. -/
theorem goesOn_crst_fall (hph : s.ph = 0) (hrstl : s.rstl = .high) : GoesOn s := by
  obtain ⟨hcs, hquiet, -⟩ := hrun
  have hbus : BusOk (engAct .crst 0 s) :=
    h.bus.emits rfl (fun _ _ => after_rstFall_eq_some.2 ⟨⟨hcs, hrstl⟩, rfl⟩) nofun rfl rfl rfl fun hl => by cases hl.2
  have hinv : BlockInv (engAct .crst 0 s) :=
    blockInv_running h.memory hbus h.txBusy h.rxBusy hbusy hcur ⟨hcs, hquiet, .inr (.inl ⟨rfl, rfl⟩)⟩
  refine goesOn_of_quiet hquiet hcur (by rw [hph]; rfl) (by rw [hph]) ⟨hinv, ?_⟩
  have hstart : ¬ Config.tRstLowMin ≤ (engAct .crst 0 s).timer := show ¬ Config.tRstLowMin ≤ 0 by decide
  rw [stepsLeft_of_ph_zero hcur hph, stepsLeft_crst_one (s := engAct .crst 0 s) hcur rfl, if_neg hstart]
  rfl

/-- `RstRise`, and the high hold begins: the reset line has then gone low and high. -/
theorem goesOn_crst_rise (hph : s.ph = 1) (hrstl : s.rstl = .low) (htime : Config.tRstLowMin ≤ s.timer) : GoesOn s := by
  obtain ⟨hcs, hquiet, -⟩ := hrun
  obtain ⟨seen, hpins, -, -⟩ := h.history
  have hrise : (⟨s.cs, s.rstl, seen⟩ : Pins).after .rstRise = some ⟨s.cs, .high, true⟩ :=
    after_rstRise_eq_some.2 ⟨⟨hcs, hrstl⟩, rfl⟩
  have hbus : BusOk (engAct .crst 1 s) := by
    refine ⟨⟨true, (afterAll_concat hpins _).trans hrise, fun _ => rfl, fun _ _ => rfl⟩, fun hmem => ?_,
      fun hset => ⟨htime, (h.holds.1 hset).2⟩, fun _ _ => htime⟩
    exact h.selected (by simpa [engAct] using hmem)
  have hinv : BlockInv (engAct .crst 1 s) :=
    blockInv_running h.memory hbus h.txBusy h.rxBusy hbusy hcur ⟨hcs, hquiet, .inr (.inr ⟨rfl, rfl⟩)⟩
  refine goesOn_of_quiet hquiet hcur (by rw [hph]; exact decide_eq_true htime) (by rw [hph]) ⟨hinv, ?_⟩
  have hstart : ¬ Config.tRstHighMin ≤ (engAct .crst 1 s).timer := show ¬ Config.tRstHighMin ≤ 0 by decide
  rw [stepsLeft_crst_one hcur hph, if_pos htime, stepsLeft_crst_two (s := engAct .crst 1 s) hcur rfl, if_neg hstart]

theorem goesOn_crst : GoesOn s := by
  obtain ⟨-, hquiet, ⟨hph, hrstl⟩ | ⟨hph, hrstl⟩ | ⟨hph, hrstl⟩⟩ := id hrun
  · exact goesOn_crst_fall h hbusy hcur hrun hph hrstl
  · by_cases htime : Config.tRstLowMin ≤ s.timer
    · exact goesOn_crst_rise h hbusy hcur hrun hph hrstl htime
    · exact goesOn_of_holding hquiet (holding_iff.2 ⟨hcur, .inl hph⟩) (by rw [hph]; exact decide_eq_false htime)
  · by_cases htime : Config.tRstHighMin ≤ s.timer
    · exact goesOn_crst_complete h hcur hrun hph hrstl htime
    · exact goesOn_of_holding hquiet (holding_iff.2 ⟨hcur, .inr hph⟩) (by rw [hph]; exact decide_eq_false htime)

end

/-! ## Every command -/

/-- The kinds of command: the two of chip-select, the byte commands, the bursts, the chip reset (rule R74). -/
inductive Kind : Instr → Prop
  | sel : Kind .sel
  | desel : Kind .desel
  | byte {i : Instr} {o : Byte} {c : Byte → Completion} (h : ByteCommand i o c) : Kind i
  | burst (d : Direction) (a : Addr) (n : Len) : Kind (d.instr a n)
  | crst : Kind .crst

theorem kind (i : Instr) : Kind i := by
  cases i with
  | sel => exact .sel
  | desel => exact .desel
  | rdb => exact .byte .rdb
  | wrb data => exact .byte (.wrb data)
  | rdburst a n => exact .burst .read a n
  | wrburst a n => exact .burst .write a n
  | crst => exact .crst

/-- From every state inside a command that meets the invariant the command goes on. -/
theorem goesOn_of_blockInv {s : State} (h : BlockInv s) (hbusy : s.cmdBusy = true) : GoesOn s := by
  obtain ⟨i, hcur, hrun⟩ := h.running hbusy
  cases kind i with
  | sel => exact goesOn_sel h hcur hrun
  | desel => exact goesOn_desel h hcur hrun
  | byte hi => exact goesOn_byte hi h hbusy hcur hrun
  | burst d a n => exact goesOn_burst h hbusy hcur hrun
  | crst => exact goesOn_crst h hbusy hcur hrun

/-- The invariant does not look at the hold timer. -/
theorem BlockInv.passTime {s : State} (h : BlockInv s) (d : Nat) : BlockInv (passTime d s) := by
  rw [passTime_frame]
  refine ⟨h.memory, h.history, h.selected, h.holds, h.txBusy, h.rxBusy, h.idle, fun hb => ?_⟩
  obtain ⟨i, hcur, hrun⟩ := h.running hb
  refine ⟨i, hcur, ?_⟩
  cases i <;> exact hrun

/-- A hold in which ENG waits passes to its bound in one step. -/
theorem advances_passTime {s : State} (h : BlockInv s) (hhold : holding s = true) (hwait : enabled .eng s = false)
    {d : Nat} (hd : (if s.ph = 1 then Config.tRstLowMin else Config.tRstHighMin) ≤ s.timer + d) :
    Advances s (passTime d s) := by
  refine ⟨h.passTime d, ?_⟩
  obtain ⟨hcur, hph⟩ := holding_iff.1 hhold
  rw [enabled_eng_of_cur hcur] at hwait
  rw [passTime_of_holding hhold]
  obtain hph | hph := hph <;> rw [hph] at hwait hd
  · have hbound : Config.tRstLowMin ≤ s.timer + d := hd
    rw [stepsLeft_crst_one hcur hph, stepsLeft_crst_one (s := { s with timer := s.timer + d }) hcur hph, if_pos hbound,
      if_neg (of_decide_eq_false hwait)]
  · have hbound : Config.tRstHighMin ≤ s.timer + d := hd
    rw [stepsLeft_crst_two hcur hph, stepsLeft_crst_two (s := { s with timer := s.timer + d }) hcur hph, if_pos hbound,
      if_neg (of_decide_eq_false hwait)]

end Sys2Proof.Machine
end

section
/-!
PROOFS, the whole machine: every step keeps the invariant (rules R33, R42, R43, R92, R93 and R128), no step is stuck and
every command ends (rules R130 and R190), what the invariant says of the history (rules R141, R174 and R187), and the
machine's own run of a command ends where its big step does (rules R9, R103 and R131).
-/

namespace Sys2Proof.Machine

/-! ## Between commands (rules R41, R42, R43 and R60) -/

theorem blockInv_blockReset {s : State} (hmem : s.mem.wf) : BlockInv (blockReset s) where
  memory := hmem
  history := ⟨false, rfl, nofun, nofun⟩
  selected := nofun
  holds := ⟨nofun, nofun⟩
  txBusy := ⟨nofun, nofun⟩
  rxBusy := ⟨nofun, nofun⟩
  idle _ := ⟨quiet_blockReset s, rfl, rfl, rfl⟩
  running := nofun

/-- Settles O34: the state after reset is a block reset's. -/
theorem resetStateMeetsTheInvariant : Obligations.ResetStateMeetsTheInvariant :=
  blockInv_blockReset (s := State.reset) reset_mem_wf

theorem blockInv_hostStore {s : State} (h : BlockInv s) (hidle : s.cmdBusy = false) (a : Addr) (v : Byte) :
    BlockInv (hostStore a v s) where
  memory := hostStore_wf h.memory a v
  history := h.history
  selected := h.selected
  holds := h.holds
  txBusy := h.txBusy
  rxBusy := h.rxBusy
  idle := h.idle
  running hb := absurd (hidle.symm.trans hb) (by decide)

/-- A lawful command accepted by an idle block. -/
theorem blockInv_accepted {s : State} {i : Instr} (h : BlockInv s) (hidle : s.cmdBusy = false) (hlaw : Lawful i s) :
    BlockInv (accepted i s) := by
  obtain ⟨hquiet, -, -, hrstl⟩ := h.idle hidle
  refine blockInv_running h.memory (h.bus.of_busFields rfl fun hl => by cases hl.2) h.txBusy h.rxBusy rfl rfl ?_
  cases kind i with
  | sel | desel => exact ⟨hlaw, hrstl, rfl, hquiet⟩
  | byte hi =>
    obtain ⟨htxf, hrxf, -, -, htxc, hrxc⟩ := hquiet
    exact hi.runningOk_iff.2 ⟨hi.lawful_iff.1 hlaw, hrstl, htxc, hrxc, .inl ⟨rfl, inFlight_eq_zero.2 ⟨htxf, hrxf⟩⟩⟩
  | burst d a n =>
    exact Direction.runningOk_iff.2 ⟨lawful_burst_iff.2 (lawful_burst_iff.1 hlaw), hrstl, .inl ⟨rfl, hquiet⟩⟩
  | crst => exact ⟨hlaw, hquiet, .inl ⟨rfl, hrstl⟩⟩

/-! ## Every move keeps the invariant -/

theorem BlockInv.act {s t : State} {ag : Agent} (h : BlockInv s) (hag : ag ≠ .host) (hen : enabled ag s = true)
    (hact : act ag s = .next t) : BlockInv t := by
  cases hbusy : s.cmdBusy with
  | false =>
    obtain ⟨hquiet, hcur, -, -⟩ := h.idle hbusy
    simp [not_enabled_of_quiet hquiet hcur hag] at hen
  | true =>
    obtain ⟨u, hu, hadv⟩ := (goesOn_of_blockInv h hbusy).advances ag hag hen
    rw [hact] at hu
    cases hu
    exact hadv.inv

theorem BlockInv.runMoves {s t : State} {l : List Move} (h : BlockInv s) (hl : ∀ m ∈ l, BlockMove m)
    (hrun : runMoves l s = some t) : BlockInv t := by
  induction l generalizing s with
  | nil =>
    cases hrun
    exact h
  | cons m l ih =>
    obtain ⟨hm, hl⟩ := List.forall_mem_cons.1 hl
    obtain ⟨u, hu, hrest⟩ := Option.bind_eq_some_iff.1 hrun
    refine ih ?_ hl hrest
    cases m with
    | agent ag =>
      obtain ⟨hen, hact⟩ := runMove_agent_eq_some.1 hu
      exact h.act (fun hag => hm.1 (hag ▸ rfl)) hen hact
    | pass d =>
      cases hu
      exact h.passTime d
    | blockReset => exact absurd rfl hm.2

theorem blockMove_agent {ag : Agent} (hag : ag ≠ .host) : BlockMove (.agent ag) :=
  ⟨fun h => hag (Move.agent.inj h), nofun⟩

theorem BlockInv.runAgents {s t : State} {l : List Agent} (h : BlockInv s) (hhost : .host ∉ l)
    (hrun : runAgents l s = some t) : BlockInv t := by
  refine h.runMoves (fun m hm => ?_) hrun
  obtain ⟨ag, hag, rfl⟩ := List.mem_map.1 hm
  exact blockMove_agent fun heq => hhost (heq ▸ hag)

/-- The big step of a lawful command keeps the invariant, for it is where a run of its small steps ends. -/
theorem blockInv_bigStep {s : State} {i : Instr} (h : BlockInv s) (hidle : s.cmdBusy = false) (hlaw : Lawful i s) :
    BlockInv (bigStep i s) := by
  obtain ⟨hquiet, -, -, -⟩ := h.idle hidle
  have hacc := blockInv_accepted h hidle hlaw
  cases kind i with
  | sel => exact hacc.runAgents (by simp) (runAgents_eng_accepted_sel s)
  | desel => exact hacc.runAgents (by simp) (runAgents_eng_accepted_desel s)
  | byte hi => exact hacc.runAgents (by simp) (runAgents_byte hi hquiet)
  | burst d a n =>
    obtain ⟨m, hm, hrun, -⟩ := exists_completion_burst hquiet hlaw
    exact hacc.runAgents hm hrun
  | crst =>
    have hrun := runMoves_crst (tRstLowMin_le_lowHold s) (tRstHighMin_le_highHold s) s
    have hinv := hacc.runMoves (by simp [BlockMove]) hrun
    exact hinv.of_environment s.inputs s.arb (s.draws + 2)

theorem BlockInv.choiceTaken {s : State} (h : BlockInv s) : BlockInv (choiceTaken s) :=
  h.of_environment s.inputs s.arb.tail (s.draws + 1)

/-- A small step of a busy block is an agent's or the passing of a hold, and either brings the command nearer. -/
theorem exists_engineStep {s : State} (h : BlockInv s) (hbusy : s.cmdBusy = true) :
    ∃ t, engineStep s = .next t ∧ Advances s t := by
  have hgo := goesOn_of_blockInv h.choiceTaken hbusy
  cases hnext : nextAgent s with
  | some ag =>
    obtain ⟨hag, hen⟩ := enabled_of_nextAgent hbusy hnext
    obtain ⟨t, hact, hadv⟩ := hgo.advances ag hag (by rwa [enabled_choiceTaken])
    exact ⟨t, by simp [engineStep, hnext, hact], hadv.inv, hadv.left⟩
  | none =>
    have hwait := not_enabled_of_nextAgent hnext (ag := .eng) (by decide)
    have hhold : holding s = true := hgo.exists_enabled.resolve_left fun ⟨ag, hag, hen⟩ => by
      simp [not_enabled_of_nextAgent hnext hag] at hen
    have hadv : Advances (Machine.choiceTaken s) _ :=
      advances_passTime h.choiceTaken hhold (by rwa [enabled_choiceTaken]) (bound_le_holdLeft s)
    exact ⟨_, by simp [engineStep, hnext, hhold], hadv.inv, hadv.left⟩

/-- Settles O35: a block reset, an agent's step or the passing of a hold, an idle step, a host store, a command's big
step, an acceptance: each keeps the invariant. -/
theorem everyStepKeepsTheInvariant : Obligations.EveryStepKeepsTheInvariant := by
  intro s t h hstep
  cases stepsTo_of_step hstep with
  | blockReset rest _ ht => exact ht ▸ blockInv_blockReset h.memory
  | running l hbusy _ hengine =>
    obtain ⟨u, hu, hadv⟩ := exists_engineStep (h.of_environment l s.arb s.draws) hbusy
    rw [hengine] at hu
    cases hu
    exact hadv.inv
  | idle l _ _ ht => exact ht ▸ h.of_environment l s.arb s.draws
  | store a v rest hidle _ ht => exact ht ▸ blockInv_hostStore (h.of_environment rest s.arb s.draws) hidle a v
  | command w i rest hidle _ _ hexec =>
    obtain ⟨-, hlaw, rfl⟩ := exec_eq_next.1 hexec
    exact blockInv_bigStep (h.of_environment rest s.arb s.draws) hidle hlaw
  | stepwise w rest hidle _ haccept =>
    obtain ⟨i, -, -, hlaw, rfl⟩ := acceptDecoded_eq_next.1 haccept
    exact blockInv_accepted (h.of_environment rest s.arb s.draws) hidle hlaw

end Sys2Proof.Machine
end

section
/-!
PROOFS, runs of the whole machine: no step is stuck and every command ends after the steps its state tells (rules R130
and R190), what the invariant says came before every exchange (rules R141, R174 and R187), and the machine's own run of
a command ends where its big step does (rules R9, R103 and R131).
-/

namespace Sys2Proof.Machine

/-! ## Before every exchange (rules R141, R174 and R187) -/

/-- RSTn has gone low and then high in a history. -/
def ResetSeenIn (es : List BusEvent) : Prop := ∃ p₁ p₂ p₃, es = p₁ ++ .rstFall :: (p₂ ++ .rstRise :: p₃)

/-- What the pins after a disciplined history tell of it: a low RSTn of its fall, `resetSeen` of a fall and a rise, and
a low CSn of its fall, which comes only after them. -/
structure PinsTell (es : List BusEvent) (q : Pins) : Prop where
  fall : q.rst = .low → .rstFall ∈ es
  reset : q.resetSeen = true → ResetSeenIn es
  selected : q.cs = .low → q.resetSeen = true ∧ .csFall ∈ es

theorem ResetSeenIn.concat {es : List BusEvent} (h : ResetSeenIn es) (e : BusEvent) : ResetSeenIn (es ++ [e]) := by
  obtain ⟨p₁, p₂, p₃, rfl⟩ := h
  exact ⟨p₁, p₂, p₃ ++ [e], by simp⟩

theorem resetSeenIn_concat_rstRise {es : List BusEvent} (h : .rstFall ∈ es) : ResetSeenIn (es ++ [.rstRise]) := by
  obtain ⟨p₁, p₂, rfl⟩ := List.append_of_mem h
  exact ⟨p₁, p₂, [], by simp⟩

theorem pinsTell_of_afterAll {es : List BusEvent} {q : Pins} (h : Pins.reset.afterAll es = some q) : PinsTell es q := by
  induction es using List.reverseRecOn generalizing q with
  | nil =>
    cases h
    exact ⟨nofun, nofun, nofun⟩
  | append_singleton es e ih =>
    obtain ⟨r, r', hr, he, hq⟩ := exists_after_of_afterAll_append_cons h
    obtain rfl : r' = q := Option.some.inj hq
    obtain ⟨hfall, hreset, hsel⟩ := ih hr
    have hmem {f : BusEvent} (hf : f ∈ es) : f ∈ es ++ [e] := List.mem_append_left _ hf
    cases e with
    | csFall =>
      obtain ⟨⟨-, -, hseen⟩, rfl⟩ := after_csFall_eq_some.1 he
      exact ⟨fun h => hmem (hfall h), fun h => (hreset h).concat _, fun _ => ⟨hseen, by simp⟩⟩
    | csRise =>
      obtain ⟨-, rfl⟩ := after_csRise_eq_some.1 he
      exact ⟨fun h => hmem (hfall h), fun h => (hreset h).concat _, nofun⟩
    | rstFall =>
      obtain ⟨-, rfl⟩ := after_rstFall_eq_some.1 he
      exact ⟨fun _ => by simp, fun h => (hreset h).concat _, fun h => ⟨(hsel h).1, hmem (hsel h).2⟩⟩
    | rstRise =>
      obtain ⟨⟨hcs, hrst⟩, rfl⟩ := after_rstRise_eq_some.1 he
      exact ⟨nofun, fun _ => resetSeenIn_concat_rstRise (hfall hrst), fun h => absurd (hcs.symm.trans h) (by decide)⟩
    | xchg o i l =>
      obtain ⟨-, rfl⟩ := after_xchg_eq_some.1 he
      exact ⟨fun h => hmem (hfall h), fun h => (hreset h).concat _, fun h => ⟨(hsel h).1, hmem (hsel h).2⟩⟩

/-- Before an exchange CSn has fallen, and before that RSTn has gone low and then high. -/
theorem before_xchg {s : State} (h : BlockInv s) {p q : List BusEvent} {o i : Byte} {l : Level}
    (hsplit : s.trace = p ++ .xchg o i l :: q) : ResetSeenIn p ∧ .csFall ∈ s.trace := by
  obtain ⟨seen, hhist, -, -⟩ := h.history
  rw [hsplit] at hhist
  obtain ⟨r, r', hr, he, -⟩ := exists_after_of_afterAll_append_cons hhist
  obtain ⟨⟨hcs, -⟩, -⟩ := after_xchg_eq_some.1 he
  obtain ⟨-, hreset, hsel⟩ := pinsTell_of_afterAll hr
  obtain ⟨hseen, hmem⟩ := hsel hcs
  exact ⟨hreset hseen, hsplit ▸ List.mem_append_left _ hmem⟩

/-- Settles O40: from the history before the exchange, `SelectedAfterReset` and `HoldsKept`. -/
theorem chipResetPrecedesEveryExchange : Obligations.ChipResetPrecedesEveryExchange := by
  refine fun s h => ⟨fun p q o i l hsplit => (before_xchg h hsplit).1, fun ⟨o, i, l, hmem⟩ => ?_, h.holds.1⟩
  obtain ⟨p, q, hsplit⟩ := List.append_of_mem hmem
  exact h.selected (before_xchg h hsplit).2

/-! ## States alike but for the outside (log entries 1, 2 and 10) -/

/-- `s` with other inputs, other preferences of the arbiter and another counter. -/
def outside (l : List Input) (m : List Agent) (k : Nat) (s : State) : State :=
  { s with inputs := l, arb := m, draws := k }

/-- `t` is `s` but for what the outside does next, the arbiter's preferences and the model's counter. -/
def SameBlock (s t : State) : Prop := t = outside t.inputs t.arb t.draws s

theorem sameBlock_outside (l : List Input) (m : List Agent) (k : Nat) (s : State) : SameBlock s (outside l m k s) := rfl

theorem SameBlock.symm {s t : State} (h : SameBlock s t) : SameBlock t s := by
  rw [h]
  rfl

theorem SameBlock.trans {s t u : State} (h : SameBlock s t) (h' : SameBlock t u) : SameBlock s u := by
  rw [h', h]
  rfl

theorem enabled_outside {ag : Agent} (hag : ag ≠ .host) (l : List Input) (m : List Agent) (k : Nat) (s : State) :
    enabled ag (outside l m k s) = enabled ag s := by
  cases ag with
  | host => exact absurd rfl hag
  | eng | shift | txch | rxch => rfl

theorem engAct_outside_comm (i : Instr) (ph : Nat) (l : List Input) (m : List Agent) (k : Nat) (s : State) :
    engAct i ph (outside l m k s) = outside l m k (engAct i ph s) := by
  cases i with
  | sel | desel => rfl
  | rdb | wrb | rdburst | wrburst => cases ph <;> rfl
  | crst => rcases ph with _ | _ | _ <;> rfl

/-- No agent of the block looks at the outside. -/
theorem act_outside {ag : Agent} (hag : ag ≠ .host) {s t : State} (h : act ag s = .next t) (l : List Input)
    (m : List Agent) (k : Nat) : act ag (outside l m k s) = .next (outside l m k t) := by
  cases ag with
  | host => exact absurd rfl hag
  | eng =>
    obtain ⟨i, hcur, rfl⟩ := act_eng_eq_next.1 h
    exact act_eng_eq_next.2 ⟨i, hcur, engAct_outside_comm i s.ph l m k s⟩
  | shift =>
    cases h
    rfl
  | txch =>
    obtain ⟨v, hv, rfl⟩ := txAct_eq_next.1 h
    refine txAct_eq_next.2 ⟨v, ?_, rfl⟩
    rw [← hv]
    change locRead s.tx.raddr _ = _
    cases s.tx.raddr <;> rfl
  | rxch =>
    obtain ⟨u, hu, rfl⟩ := rxAct_eq_next.1 h
    refine rxAct_eq_next.2 ⟨outside l m k u, ?_, rfl⟩
    obtain ⟨a, hdst, ha, rfl⟩ | ⟨hdst, rfl⟩ := locWrite_eq_ok.1 hu
    · exact locWrite_eq_ok.2 (.inl ⟨a, hdst, ha, rfl⟩)
    · exact locWrite_eq_ok.2 (.inr ⟨hdst, rfl⟩)

theorem passTime_of_not_holding {s : State} (h : ¬ holding s = true) (d : Nat) : passTime d s = s := if_neg h

theorem passTime_outside (d : Nat) (l : List Input) (m : List Agent) (k : Nat) (s : State) :
    passTime d (outside l m k s) = outside l m k (passTime d s) := by
  by_cases hhold : holding s = true
  · rw [passTime_of_holding hhold, passTime_of_holding (s := outside l m k s) hhold]
    rfl
  · rw [passTime_of_not_holding hhold, passTime_of_not_holding (s := outside l m k s) hhold]

theorem runMove_outside {mv : Move} (hmv : BlockMove mv) {s t : State} (h : runMove mv s = some t) (l : List Input)
    (m : List Agent) (k : Nat) : runMove mv (outside l m k s) = some (outside l m k t) := by
  cases mv with
  | agent ag =>
    obtain ⟨hen, hact⟩ := runMove_agent_eq_some.1 h
    have hag : ag ≠ .host := fun hag => hmv.1 (hag ▸ rfl)
    exact runMove_agent_eq_some.2 ⟨(enabled_outside hag l m k s).trans hen, act_outside hag hact l m k⟩
  | pass d =>
    cases h
    exact congrArg some (passTime_outside d l m k s)
  | blockReset => exact absurd rfl hmv.2

/-- A schedule of the block's moves does not look at the outside. -/
theorem runMoves_outside {ms : List Move} (hms : ∀ mv ∈ ms, BlockMove mv) {s t : State} (h : runMoves ms s = some t)
    (l : List Input) (m : List Agent) (k : Nat) : runMoves ms (outside l m k s) = some (outside l m k t) := by
  induction ms generalizing s with
  | nil =>
    cases h
    rfl
  | cons mv ms ih =>
    obtain ⟨hmv, hms⟩ := List.forall_mem_cons.1 hms
    obtain ⟨u, hu, hrest⟩ := Option.bind_eq_some_iff.1 h
    rw [runMoves, runMove_outside hmv hu]
    exact ih hms hrest

theorem SameBlock.runMoves {s s' t : State} (hs : SameBlock s s') {ms : List Move} (hms : ∀ mv ∈ ms, BlockMove mv)
    (h : runMoves ms s = some t) : ∃ t', Machine.runMoves ms s' = some t' ∧ SameBlock t t' := by
  rw [hs]
  exact ⟨_, runMoves_outside hms h _ _ _, sameBlock_outside _ _ _ _⟩

/-! ## A step of a busy block (rules R130, R163 and R190) -/

/-- A small step of a busy block is, but for the outside, a move: an enabled agent's turn or the passing of a hold. -/
theorem exists_move_of_engineStep {s t : State} (hbusy : s.cmdBusy = true) (h : engineStep s = .next t) :
    ∃ mv u, BlockMove mv ∧ runMove mv s = some u ∧ SameBlock u t := by
  obtain ⟨ag, hnext, hact⟩ | ⟨-, -, rfl⟩ := engineStep_cases h
  · obtain ⟨hag, hen⟩ := enabled_of_nextAgent hbusy hnext
    exact ⟨.agent ag, _, blockMove_agent hag,
      runMove_agent_eq_some.2 ⟨hen, act_outside hag hact s.inputs s.arb s.draws⟩, (sameBlock_outside _ _ _ t).symm⟩
  · refine ⟨.pass (holdLeft s), _, ⟨nofun, nofun⟩, rfl, ?_⟩
    change SameBlock _ (passTime (holdLeft s) (outside s.inputs s.arb.tail (s.draws + 1) s))
    rw [passTime_outside]
    exact sameBlock_outside _ _ _ _

/-- Where no block reset strikes, a step of a busy block is a small step; it uses up at most a `wait`. -/
theorem step_of_busy {s : State} (hbusy : s.cmdBusy = true) (hreset : ∀ rest, s.inputs ≠ .blockReset :: rest) :
    ∃ l, l <:+ s.inputs ∧ step s = engineStep { s with inputs := l } := by
  by_cases hwait : ∃ rest, s.inputs = .wait :: rest
  · obtain ⟨rest, hin⟩ := hwait
    exact ⟨rest, hin ▸ List.suffix_cons _ _, by simp [step, lookUp, hin, hbusy]⟩
  · refine ⟨s.inputs, List.suffix_rfl, ?_⟩
    change step s = engineStep s
    rcases hin : s.inputs with _ | ⟨_ | _ | _ | _ | _, rest⟩
    case cons.wait => exact absurd ⟨rest, hin⟩ hwait
    case cons.blockReset => exact absurd hin (hreset rest)
    all_goals simp only [step, lookUp, hin, if_pos hbusy]

/-- What one step of a busy block has done, with no block reset to come. -/
structure Progress (s t : State) : Prop where
  advances : Advances s t
  noReset : .blockReset ∉ t.inputs
  move : ∃ mv u, BlockMove mv ∧ runMove mv s = some u ∧ SameBlock u t

theorem exists_progress {s : State} (h : BlockInv s) (hbusy : s.cmdBusy = true) (hreset : .blockReset ∉ s.inputs) :
    ∃ t, step s = .next t ∧ Progress s t := by
  obtain ⟨l, hl, hstep⟩ := step_of_busy hbusy fun rest hin => hreset (by simp [hin])
  obtain ⟨t, ht, hadv⟩ := exists_engineStep (h.of_environment l s.arb s.draws) hbusy
  obtain ⟨mv, u, hmv, hu, hsame⟩ := exists_move_of_engineStep (s := { s with inputs := l }) hbusy ht
  refine ⟨t, hstep.trans ht, ⟨hadv.inv, hadv.left⟩, ?_, mv, _, hmv, runMove_outside hmv hu s.inputs s.arb s.draws,
    (sameBlock_outside _ _ _ u).symm.trans hsame⟩
  rw [engineStep_inputs (s := { s with inputs := l }) hbusy ht]
  exact fun hmem => hreset (hl.subset hmem)

/-- A command is in progress exactly as long as there are steps left. -/
theorem stepsLeft_pos_iff {s : State} (h : BlockInv s) : 0 < stepsLeft s ↔ s.cmdBusy = true := by
  cases hbusy : s.cmdBusy with
  | false =>
    obtain ⟨-, hcur, -⟩ := h.idle hbusy
    simp [stepsLeft_of_cur_none hcur]
  | true =>
    obtain ⟨t, -, hadv⟩ := exists_engineStep h hbusy
    have hleft := hadv.left
    simp only [iff_true]
    omega

/-- An idle block's step may be refused, but it never faults (rule R150). -/
theorem step_ne_fault_of_idle {s : State} (hidle : s.cmdBusy = false) (f : Fault) : step s ≠ .fault f := by
  have haccept (d : Decoded) (t : State) : acceptDecoded d t ≠ .fault f := by
    cases d with
    | command i => exact issue_ne_fault f
    | reserved r => exact nofun
  rcases hin : s.inputs with _ | ⟨w | w | ⟨a, v⟩ | _ | _, rest⟩ <;> simp only [step, lookUp, hin, hidle]
  case cons.command =>
    cases decode s.params.burstPath w with
    | command i => exact exec_ne_fault i _ f
    | reserved r => exact nofun
  case cons.stepwise => exact haccept _ _
  all_goals exact nofun

/-- Settles O36: an idle block never faults, a busy one steps. -/
theorem theBlockIsNeverStuck : Obligations.TheBlockIsNeverStuck := by
  intro s h
  have hbusyStep (hbusy : s.cmdBusy = true) : ∃ t, step s = .next t := by
    by_cases hreset : ∃ rest, s.inputs = .blockReset :: rest
    · obtain ⟨rest, hin⟩ := hreset
      exact ⟨_, step_blockReset hin⟩
    · obtain ⟨l, -, hstep⟩ := step_of_busy hbusy (not_exists.1 hreset)
      obtain ⟨t, ht, -⟩ := exists_engineStep (h.of_environment l s.arb s.draws) hbusy
      exact ⟨t, hstep.trans ht⟩
  refine ⟨fun f hf => ?_, hbusyStep⟩
  cases hbusy : s.cmdBusy with
  | false => exact step_ne_fault_of_idle hbusy f hf
  | true =>
    obtain ⟨t, ht⟩ := hbusyStep hbusy
    rw [hf] at ht
    cases ht

/-! ## Runs (rules R9, R103, R131 and R190) -/

theorem coreRun_succ (M : Host.Core) {s t : M.State} (h : M.step s = .next t) (k : Nat) :
    M.run (k + 1) s = M.run k t := by
  simp [Host.Core.run, h]

theorem run_succ {s t : State} (h : step s = .next t) (k : Nat) : core.run (k + 1) s = core.run k t :=
  coreRun_succ core h k

/-- A run of a busy block inside its command has taken its steps one by one, and is a schedule of the block's moves. -/
theorem exists_run {s : State} (h : BlockInv s) (hreset : .blockReset ∉ s.inputs) {k : Nat} (hk : k ≤ stepsLeft s) :
    ∃ t, core.run k s = .next t ∧ BlockInv t ∧ stepsLeft t + k = stepsLeft s ∧
      ∃ ms u, (∀ mv ∈ ms, BlockMove mv) ∧ runMoves ms s = some u ∧ SameBlock u t := by
  induction k generalizing s with
  | zero => exact ⟨s, rfl, h, rfl, [], s, by simp, rfl, rfl⟩
  | succ k ih =>
    obtain ⟨t, hstep, ⟨hinv, hleft⟩, hreset', mv, u, hmv, hu, hsame⟩ :=
      exists_progress h ((stepsLeft_pos_iff h).1 (by omega)) hreset
    obtain ⟨v, hrun, hinv', hleft', ms, w, hms, hw, hsame'⟩ := ih hinv hreset' (by omega)
    obtain ⟨w', hw', hsame''⟩ := hsame.symm.runMoves hms hw
    refine ⟨v, (run_succ hstep k).trans hrun, hinv', by omega, mv :: ms, w',
      List.forall_mem_cons.2 ⟨hmv, hms⟩, ?_, hsame''.symm.trans hsame'⟩
    rw [runMoves, hu]
    exact hw'

/-- Settles O37: along the run the steps left go down by one each; the command is in progress while there are any. -/
theorem everyCommandEnds : Obligations.EveryCommandEnds := by
  refine fun s h hbusy hreset => ⟨fun k hk => ?_, ?_⟩
  · obtain ⟨t, hrun, hinv, hleft, -⟩ := exists_run h hreset hk.le
    exact ⟨t, hrun, (stepsLeft_pos_iff hinv).1 (by omega)⟩
  · obtain ⟨t, hrun, hinv, hleft, -⟩ := exists_run h hreset le_rfl
    exact ⟨t, hrun, Bool.eq_false_iff.2 fun hb => by have := (stepsLeft_pos_iff hinv).2 hb; omega⟩

/-! ## The machine's run of a command against its big step (rules R9, R103 and R131) -/

theorem engAct_cur (i : Instr) (ph : Nat) (s : State) : (engAct i ph s).cur = s.cur ∨ (engAct i ph s).cur = none := by
  cases i with
  | sel | desel => exact .inr rfl
  | rdb | wrb | rdburst | wrburst =>
    cases ph with
    | zero => exact .inl rfl
    | succ => exact .inr rfl
  | crst =>
    rcases ph with _ | _ | _
    · exact .inl rfl
    · exact .inl rfl
    · exact .inr rfl

/-- The block's agents hold on to the command or complete it. -/
theorem act_cur {ag : Agent} {s t : State} (hag : ag ≠ .host) (h : act ag s = .next t) :
    t.cur = s.cur ∨ t.cur = none := by
  cases ag with
  | host => exact absurd rfl hag
  | eng =>
    obtain ⟨i, -, rfl⟩ := act_eng_eq_next.1 h
    exact engAct_cur i s.ph s
  | shift =>
    cases h
    exact .inl rfl
  | txch =>
    obtain ⟨v, -, rfl⟩ := txAct_eq_next.1 h
    exact .inl rfl
  | rxch =>
    rw [rxAct_frame h]
    exact .inl rfl

/-- Outside `CRST` the passing of time shows nowhere: a schedule of moves is one of agents' turns. -/
theorem exists_runAgents_of_runMoves {s u : State} (hcur : s.cur ≠ some .crst) {ms : List Move}
    (hms : ∀ mv ∈ ms, BlockMove mv) (hrun : runMoves ms s = some u) :
    ∃ l : List Agent, .host ∉ l ∧ runAgents l s = some u := by
  induction ms generalizing s with
  | nil => exact ⟨[], by simp, hrun⟩
  | cons mv ms ih =>
    obtain ⟨hmv, hrestMoves⟩ := List.forall_mem_cons.1 hms
    obtain ⟨v, hv, hrest⟩ := Option.bind_eq_some_iff.1 hrun
    cases mv with
    | agent ag =>
      obtain ⟨hen, hact⟩ := runMove_agent_eq_some.1 hv
      have hag : ag ≠ .host := fun hag => hmv.1 (hag ▸ rfl)
      have hcur' : v.cur ≠ some .crst := by
        obtain hc | hc := act_cur hag hact <;> simp [hc, hcur]
      obtain ⟨l, hl, hall⟩ := ih hcur' hrestMoves hrest
      exact ⟨ag :: l, by simp [hag.symm, hl], runAgents_cons_eq_some.2 ⟨v, hen, hact, hall⟩⟩
    | pass d =>
      cases hv
      rw [passTime_of_not_holding fun hhold => hcur (holding_iff.1 hhold).1] at hrest
      exact ih hcur hrestMoves hrest
    | blockReset => exact absurd rfl hmv.2

section
variable {s u : State} {i : Instr} (hidle : s.cmdBusy = false) (hquiet : quiet s) (hlaw : Lawful i s)
include hidle hquiet hlaw

/-- Run agent by agent to its completion, a command ends in its big step. -/
theorem eq_bigStep_of_runAgents (hi : i ≠ .crst) {l : List Agent} (hhost : .host ∉ l)
    (hrun : runAgents l (accepted i s) = some u) (hdone : u.cmdBusy = false) : u = bigStep i s := by
  have hone {t : State} (hstep : OnlyStep .eng (accepted i s) t) (ht : quiet t) (hcur : t.cur = none) : u = t := by
    obtain ⟨m, rfl, hm, -⟩ := hstep.exists_of_completes rfl ⟨hhost, u, hrun, hdone⟩
    rw [hstep.runAgents_cons] at hrun
    exact (eq_of_runAgents_quiet ht hcur hm hrun).1
  obtain ⟨htxf, -, htx, hrx, -, -⟩ := id hquiet
  cases kind i with
  | sel => exact hone (onlyStep_eng rfl rfl rfl htx hrx htxf) hquiet rfl
  | desel => exact hone (onlyStep_eng rfl rfl rfl htx hrx htxf) hquiet rfl
  | byte hbyte =>
    obtain rfl := eq_of_completes_byte hbyte hquiet ⟨hhost, u, hrun, hdone⟩
    exact Option.some.inj (hrun.symm.trans (runAgents_byte hbyte hquiet))
  | burst d a n =>
    obtain ⟨t, ht, -, hall⟩ := everyScheduleOfABurstEndsInItsBigStep s (d.instr a n) a n
      (by cases d <;> simp [Direction.instr]) hidle hquiet hlaw
    obtain ⟨-, -, hbig⟩ := exec_eq_next.1 ht
    exact (hall l u hhost hrun hdone).1.trans hbig.symm
  | crst => exact absurd rfl hi

/-- Run in the block's own moves to its completion, a command ends in its big step but for the recorded holds. -/
theorem eq_bigStep_of_runMoves {ms : List Move} (hms : ∀ mv ∈ ms, BlockMove mv)
    (hrun : runMoves ms (accepted i s) = some u) (hdone : u.cmdBusy = false) :
    u = { bigStep i s with draws := u.draws, holdLow := u.holdLow, holdHigh := u.holdHigh } := by
  by_cases hi : i = .crst
  · subst hi
    obtain ⟨low, high, -, -, rfl⟩ := (ResetRun.accepted.runMoves hquiet hms hrun).eq_crstWith hdone
    rfl
  · have hcur : (accepted i s).cur ≠ some .crst := fun h => hi (Option.some.inj h)
    obtain ⟨l, hl, hall⟩ := exists_runAgents_of_runMoves hcur hms hrun
    rw [eq_bigStep_of_runAgents hidle hquiet hlaw hi hl hall hdone]

end

/-- Settles O38: the acceptance, then the run of `exists_run`, a schedule of moves that ends in the big step. -/
theorem stepwiseRunEndsInTheBigStep : Obligations.StepwiseRunEndsInTheBigStep := by
  intro s w i rest h hidle hin hreset hdec hlaw
  obtain ⟨hquiet, -⟩ := h.idle hidle
  have hstep : step s = .next (outside rest s.arb s.draws (accepted i s)) := by
    rw [step_stepwise hidle hdec hin]
    exact issue_eq_next.2 ⟨hidle, contract_eq_none.2 (by cases i <;> exact hlaw), rfl⟩
  have hinv : BlockInv (outside rest s.arb s.draws (accepted i s)) :=
    (blockInv_accepted h hidle hlaw).of_environment rest s.arb s.draws
  have hleft : stepsLeft (outside rest s.arb s.draws (accepted i s)) = smallSteps i := stepsLeft_of_ph_zero rfl rfl
  refine ⟨fun k hk hk' => ?_, ?_⟩
  · obtain ⟨k, rfl⟩ := Nat.exists_eq_add_of_le' hk
    obtain ⟨t, hrun, ht, hleft', -⟩ := exists_run hinv hreset (k := k) (by omega)
    exact ⟨t, (run_succ hstep k).trans hrun, (stepsLeft_pos_iff ht).1 (by omega)⟩
  · obtain ⟨t, hrun, ht, hleft', ms, u, hms, hu, hsame⟩ := exists_run hinv hreset (k := smallSteps i) hleft.ge
    obtain ⟨v, hv, hsame'⟩ := (sameBlock_outside rest s.arb s.draws (accepted i s)).symm.runMoves hms hu
    have hvt : SameBlock v t := hsame'.symm.trans hsame
    have hdone : t.cmdBusy = false :=
      Bool.eq_false_iff.2 fun hb => by have := (stepsLeft_pos_iff ht).2 hb; omega
    have hbig := eq_bigStep_of_runMoves hidle hquiet hlaw hms hv (by rw [hvt] at hdone; exact hdone)
    refine ⟨t, bigStep i s, ?_, exec_eq_next.2 ⟨hidle, hlaw, rfl⟩, ?_⟩
    · rw [Nat.add_comm]
      exact (run_succ hstep _).trans hrun
    · rw [hvt, hbig]
      rfl

end Sys2Proof.Machine
end
